-- ==== Sys2Proof/Word.lean ====
section
/-! DEFINITION. The words of the DMK: the types of the values its registers, operands and pins hold.
The widths are the fixed parameters of 00_scope.md rule R7 (N_SLOTS 6, PAT_W 16, CHAR_W 8, N_ROWS 4, N_COLS 4). -/

namespace Sys2Proof

/-- A host-port data word (20_memory.md rule R53) or a segment pattern (PAT_W, 00_scope.md rule R7): 16 bits. -/
abbrev Word := BitVec 16

/-- A character code: 8 bits (CHAR_W, 00_scope.md rule R7). -/
abbrev CharCode := BitVec 8

/-- A stimulus word: 24 bits, one input event (30_encoding.md rules R70 and R71). -/
abbrev Stimulus := BitVec 24

/-- A sample map: bit `4*row + col` is 1 iff that column was sampled active while that row was driven
(30_encoding.md rule R79). -/
abbrev SampleMap := BitVec 16

/-- A register address of the host port: 4 bits (20_memory.md rule R50). -/
abbrev RegAddr := BitVec 4

/-- A digit slot, 0..5 (N_SLOTS, 00_scope.md rule R7). -/
abbrev Slot := Fin 6

/-- A matrix position `k = 4*row + col`, 0..15 (30_encoding.md rule R79). -/
abbrev KeyPos := Fin 16

end Sys2Proof
end

