-- ==== Sys2Proof/Config.lean ====
section
/-! DEFINITION. What the spec leaves open and a claim may assume nothing about: constants with no body.
The parameters the spec gives a default value are in Sys2Proof/Machine/Params.lean. -/

namespace Sys2Proof.Config

/-- SEG_TABLE, the open parameter of 00_scope.md rule R7 (93_implementation_defined.md U1): the pattern of a character code.
The two constraints the spec puts on it (unsupported codes and the space are unlit) are applied where it is looked up,
by `Machine.patternFor`, so that this constant is free. Log 3. -/
opaque segTable : CharCode → Word

/-- What the display chain's shift stages XS hold at power-on (70_reset_and_hazards.md rule R192: no known value). Log 4. -/
opaque powerOnXs : Word

/-- What the display chain's output latch XL holds at power-on (70_reset_and_hazards.md rule R192: no known value). Log 4. -/
opaque powerOnXl : Word

/-- IDLE_PERIOD of 00_scope.md rule R7: open, timing only. No rule of the machine reads it (41_keypad_decoder.md rule R136). Log 22. -/
opaque idlePeriod : Nat

end Sys2Proof.Config
end

