-- ==== Sys2Proof/Machine/Params.lean ====
section
/-! DEFINITION. The parameters to which the spec gives a fixed or a default value (00_scope.md rule R7). The default values
are the document's unaudited literals (92_eei_decisions.md D31, log 5). -/

namespace Sys2Proof.Machine

/-- BLANK, the space code (00_scope.md rule R7; ASCII, log 7). -/
def blank : CharCode := 0x20#8

/-- PLACEHOLDER, the underscore code (00_scope.md rule R7; ASCII, log 7). -/
def placeholder : CharCode := 0x5F#8

/-- CURSOR_NONE: no active edit cursor (00_scope.md rule R7). -/
def cursorNone : BitVec 3 := 6#3

/-- STAGE_STEP in counted invocations (00_scope.md rule R7). -/
def stageStep : Nat := 2500

/-- HD_CEIL in counted invocations (00_scope.md rule R7). -/
def hdCeil : BitVec 14 := 12500#14

/-- A_LONG in counted invocations (00_scope.md rule R7; "~4000" taken exactly, 92_eei_decisions.md D15). -/
def aLong : Nat := 4000

/-- F_CYCLE_MIN, refresh cycles a second: timing only, read by no rule (00_scope.md rule R7, 70_reset_and_hazards.md rule R210, log 14). -/
def fCycleMin : Nat := 60

end Sys2Proof.Machine
end

