-- ==== Sys2Proof/Syntax.lean ====
section
/-! DEFINITION. The operations of the DMK, one constructor for each row of spec/opcode_table.json, with the agent that
performs each (00_scope.md rule R3). -/

namespace Sys2Proof

/-- The seventeen operations (30_encoding.md rule R84). An index operand is a number whose range `Instr.WellFormed` checks;
a data operand is the 16-bit `data` field as it stands (rule R75). -/
inductive Instr where
  /-- A step in which no event occurs (42_host_port.md rule R163). -/
  | nop
  /-- One refresh step of the multiplexer (40_display_mux.md rule R102). -/
  | tick
  /-- One invocation of the keypad decoder on a sample map (41_keypad_decoder.md rule R120). -/
  | kpscan (sample : SampleMap)
  /-- The idle-timeout reset of HD (41_keypad_decoder.md rule R136). -/
  | idleto
  /-- Read slot `idx` of the visible-buffer window (42_host_port.md rule R151). -/
  | rdVb (idx : Nat)
  /-- Read CURSOR (42_host_port.md rule R153). -/
  | rdCursor
  /-- Read CCHAR (42_host_port.md rule R155). -/
  | rdCchar
  /-- Read BTN (42_host_port.md rule R157). -/
  | rdBtn
  /-- Read HD (42_host_port.md rule R159). -/
  | rdHd
  /-- Read reserved address 0xC + `lo` (42_host_port.md rule R161). -/
  | rdRsvd (lo : Nat)
  /-- Write slot `idx` of the visible-buffer window (42_host_port.md rule R152). -/
  | wrVb (idx : Nat) (data : Word)
  /-- Write CURSOR (42_host_port.md rule R154). -/
  | wrCursor (data : Word)
  /-- Write CCHAR (42_host_port.md rule R156). -/
  | wrCchar (data : Word)
  /-- Acknowledge the button event (42_host_port.md rule R158). -/
  | ackBtn (data : Word)
  /-- Clear HD (42_host_port.md rule R160). -/
  | clrHd (data : Word)
  /-- Write reserved address 0xC + `lo` (42_host_port.md rule R162). -/
  | wrRsvd (lo : Nat) (data : Word)
  /-- The reset operation (70_reset_and_hazards.md rule R190). -/
  | reset
  deriving DecidableEq, Repr

/-- The five agents that act on the DMK (00_scope.md rule R3). -/
inductive Agent where
  | mux | kpd | idle | host | rst
  deriving DecidableEq, Repr

/-- The agent that performs an operation; NOP is performed for none (30_encoding.md rule R72). -/
def Instr.agent : Instr → Option Agent
  | .nop => none
  | .tick => some .mux
  | .kpscan _ => some .kpd
  | .idleto => some .idle
  | .rdVb _ => some .host
  | .rdCursor => some .host
  | .rdCchar => some .host
  | .rdBtn => some .host
  | .rdHd => some .host
  | .rdRsvd _ => some .host
  | .wrVb _ _ => some .host
  | .wrCursor _ => some .host
  | .wrCchar _ => some .host
  | .ackBtn _ => some .host
  | .clrHd _ => some .host
  | .wrRsvd _ _ => some .host
  | .reset => some .rst

/-- The operation's name in the opcode map (30_encoding.md rule R84). -/
def Instr.mnemonic : Instr → String
  | .nop => "NOP"
  | .tick => "TICK"
  | .kpscan _ => "KPSCAN"
  | .idleto => "IDLETO"
  | .rdVb _ => "RD.VB"
  | .rdCursor => "RD.CURSOR"
  | .rdCchar => "RD.CCHAR"
  | .rdBtn => "RD.BTN"
  | .rdHd => "RD.HD"
  | .rdRsvd _ => "RD.RSVD"
  | .wrVb _ _ => "WR.VB"
  | .wrCursor _ => "WR.CURSOR"
  | .wrCchar _ => "WR.CCHAR"
  | .ackBtn _ => "ACK.BTN"
  | .clrHd _ => "CLR.HD"
  | .wrRsvd _ _ => "WR.RSVD"
  | .reset => "RESET"

/-- The operation classes of a stimulus word (30_encoding.md rule R72). -/
inductive OpClass where
  | nop | tick | kpscan | idleto | hostrd | hostwr | reset
  deriving DecidableEq, Repr

/-- Why a stimulus word spells no operation: the four cases of 30_encoding.md rule R76. -/
inductive InvalidWord where
  /-- `cls = 110`. -/
  | unassignedClass
  /-- `z = 1`. -/
  | zBitSet
  /-- `addr` is not 0 in a class that is not a host class. -/
  | addrNotZero
  /-- `data` is not 0 in a class whose data must be 0. -/
  | dataNotZero
  deriving DecidableEq, Repr

end Sys2Proof
end

