-- ==== Sys2Proof/Machine/State.lean ====
section
/-! DEFINITION. The state of the DMK as plain data, the reasons a step can stop, and the state after reset
(10_state.md rules R20 to R46). -/

namespace Sys2Proof.Machine

/-- The nine values of the button-event mailbox (10_state.md rule R32). -/
inductive ButtonEvent where
  | none | idle | keyA | keyALongPress | keyB | keyC | keyD | keyHash | keyStar
  deriving DecidableEq, Repr

/-- The sixteen key labels: ten digit keys and six command keys (30_encoding.md rule R80). -/
inductive KeyLabel where
  | digit (d : Fin 10) | a | b | c | d | star | hash
  deriving DecidableEq, Repr

/-- The alphabet of the pin trace (10_state.md rule R43). -/
inductive PinEvent where
  /-- `DIG_N[i] <- 1`. -/
  | digOff (i : Slot)
  /-- `SER_DATA <- b`. -/
  | data (b : Bool)
  /-- A pulse on SER_SCK. -/
  | shift
  /-- A pulse on SER_LCK. -/
  | latch
  /-- `DIG_N[i] <- 0`. -/
  | digOn (i : Slot)
  /-- Row `r` driven, the other three released. -/
  | row (r : Fin 4)
  /-- The columns sampled as `v` while row `r` is driven. -/
  | cols (r : Fin 4) (v : BitVec 4)
  /-- All rows driven. -/
  | park
  /-- All output pins to their reset levels. -/
  | pinsReset
  deriving DecidableEq, Repr

/-- The levels of the output pins (10_state.md rules R40 to R42). -/
structure Pins where
  digN : BitVec 6
  serData : Bool
  serSck : Bool
  serLck : Bool
  rowN : BitVec 4
  deriving DecidableEq, Repr

/-- The environment's display chain: shift stages XS and output latch XL (10_state.md rule R44). -/
structure Chain where
  xs : Word
  xl : Word
  deriving DecidableEq, Repr

/-- Everything the spec gives the machine. The field docstrings name the rule; INVENTORY.md lists widths and reset values. -/
structure State where
  /-- VB[0..5] (10_state.md rule R20). -/
  vb : Vector CharCode 6
  /-- CURSOR (10_state.md rule R21). -/
  cursor : BitVec 3
  /-- CCHAR (10_state.md rule R22). -/
  cchar : CharCode
  /-- BTN (10_state.md rule R23). -/
  btn : BitVec 4
  /-- HD (10_state.md rule R24). -/
  hd : BitVec 14
  /-- activeSlot (10_state.md rule R25; 3 bits of which 6 and 7 are unreachable, log 8). -/
  activeSlot : Slot
  /-- aDown (10_state.md rule R26). -/
  aDown : Bool
  /-- SR (10_state.md rule R27). -/
  sr : Word
  /-- The output pins (10_state.md rule R40). -/
  pins : Pins
  /-- The display chain (10_state.md rule R44). -/
  chain : Chain
  /-- The pin trace, oldest event first (10_state.md rule R43). -/
  pinTrace : List PinEvent
  /-- The words host reads have returned, oldest first (00_scope.md rule R5(b); log 11). -/
  reads : List Word
  /-- The MODEL's own field: the input events still to occur, next first (the schedule of 00_scope.md rule R6; log 1). -/
  stimuli : List Stimulus
  deriving DecidableEq, Repr

/-- The DMK has no fault: it raises no exception and no operation can fail (60_exceptions.md rule R170). Log 27. -/
inductive Fault where
  deriving DecidableEq, Repr

/-- Why a step has no meaning. -/
inductive Refusal where
  /-- Raised by `exec` for an operation the model gives no meaning yet: none. Safe. -/
  | notModelled (mnemonic : String)
  /-- Raised by `step` for a pending stimulus word that spells no operation (30_encoding.md rule R76). Safe: the hardware has
  no such input (log 12). -/
  | noOperation (why : InvalidWord)
  deriving DecidableEq, Repr

/-- The machine right after reset (10_state.md rule R46): power-on is a RESET (70_reset_and_hazards.md rule R191). XS and XL
have no known value (rule R192): opaque constants, log 4. No event is pending and no word has been read: logs 1 and 11. -/
def State.reset : State where
  vb := Vector.replicate 6 blank
  cursor := cursorNone
  cchar := placeholder
  btn := 0#4
  hd := 0#14
  activeSlot := 0
  aDown := false
  sr := 0x0000#16
  pins := { digN := 0b111111#6, serData := false, serSck := false, serLck := false, rowN := 0b0000#4 }
  chain := { xs := Config.powerOnXs, xl := Config.powerOnXl }
  pinTrace := [.pinsReset]
  reads := []
  stimuli := []

end Sys2Proof.Machine
end

