-- ==== Sys2Proof/Machine/Operands.lean ====
section
/-! DEFINITION. What the operations compute from registers and inputs before they write: the next slot and its character, the
pattern lookup, the key matrix, the key placement and the per-key character lists. -/

namespace Sys2Proof.Machine

/-! ## Display -/

/-- The next digit slot, `activeSlot + 1` and 0 after 5 (40_display_mux.md rule R105). -/
def nextSlot (i : Slot) : Slot := if h : i.val < 5 then ⟨i.val + 1, by omega⟩ else 0

/-- The character shown on the slot being enabled: CCHAR if its index equals CURSOR, else its VB entry
(40_display_mux.md rule R103). CURSOR 6 and 7 equal no slot. -/
def shownChar (slot : Slot) (s : State) : CharCode :=
  if s.cursor.toNat = slot.val then s.cchar else s.vb[slot.val]

/-- The 38 supported character codes: space, 0..9, A..Z and the cursor glyph (30_encoding.md rule R81). -/
def supported (c : CharCode) : Bool :=
  c == 0x20#8 || (0x30 ≤ c.toNat && c.toNat ≤ 0x39) || (0x41 ≤ c.toNat && c.toNat ≤ 0x5A) || c == 0x5F#8

/-- `patternFor(c)`: unlit for an unsupported code and for the space, else the open table's entry
(40_display_mux.md rule R100; 92_eei_decisions.md D5; log 3). -/
def patternFor (c : CharCode) : Word :=
  if supported c = true ∧ c ≠ 0x20#8 then Config.segTable c else 0x0000#16

/-! ## The key matrix -/

/-- The levels of COL_N while row `r` is driven: a column whose key answers is low (10_state.md rules R41 and R45,
30_encoding.md rule R79). -/
def columnPins (m : SampleMap) (r : Fin 4) : BitVec 4 := ~~~(m.extractLsb' (4 * r.val) 4)

/-- `readColumns()`: bit `c` is the inverse of COL_N[c] (10_state.md rule R41). -/
def readColumns (colN : BitVec 4) : BitVec 4 := ~~~colN

/-- The sample of row `r`. -/
def sampleRow (m : SampleMap) (r : Fin 4) : BitVec 4 := readColumns (columnPins m r)

/-- The nine pin events of a scan: each row driven and sampled in turn, then the rows parked (41_keypad_decoder.md rule R121). -/
def scanEvents (m : SampleMap) : List PinEvent :=
  [ .row 0, .cols 0 (sampleRow m 0), .row 1, .cols 1 (sampleRow m 1),
    .row 2, .cols 2 (sampleRow m 2), .row 3, .cols 3 (sampleRow m 3), .park ]

/-- The scan result latched whole, `{v3, v2, v1, v0}` (41_keypad_decoder.md rules R121 and R122). -/
def latchedMap (m : SampleMap) : SampleMap :=
  sampleRow m 3 ++ sampleRow m 2 ++ sampleRow m 1 ++ sampleRow m 0

/-! ## Keys -/

/-- The default placement of the key labels, row by row (30_encoding.md rule R80; PRESUMED by the spec, log 6). -/
def keymapTable : Vector KeyLabel 16 :=
  #v[ .digit 1, .digit 2, .digit 3, .a,
      .digit 4, .digit 5, .digit 6, .b,
      .digit 7, .digit 8, .digit 9, .c,
      .star,    .digit 0, .hash,    .d ]

/-- KEYMAP: the label at a matrix position (30_encoding.md rule R80). -/
def keymap (k : KeyPos) : KeyLabel := keymapTable[k.val]

/-- `KEYMAP^-1`: the matrix position of a label (30_encoding.md rule R83). -/
def keyPos (l : KeyLabel) : KeyPos := ((List.finRange 16).find? (fun k => keymap k == l)).getD 0

/-- `KEY(label)`, the one-hot sample map of a label (30_encoding.md rule R83). -/
def keyMask (l : KeyLabel) : SampleMap := 1#16 <<< (keyPos l).val

/-- LIST_d, the ordered characters of digit key `d` (41_keypad_decoder.md rule R126). -/
def charList (d : Fin 10) : List CharCode :=
  match d with
  | 0 => [0x30#8, 0x20#8, 0x30#8]
  | 1 => [0x31#8]
  | 2 => [0x32#8, 0x41#8, 0x42#8, 0x43#8]
  | 3 => [0x33#8, 0x44#8, 0x45#8, 0x46#8]
  | 4 => [0x34#8, 0x47#8, 0x48#8, 0x49#8]
  | 5 => [0x35#8, 0x4A#8, 0x4B#8, 0x4C#8]
  | 6 => [0x36#8, 0x4D#8, 0x4E#8, 0x4F#8]
  | 7 => [0x37#8, 0x50#8, 0x51#8, 0x52#8, 0x53#8]
  | 8 => [0x38#8, 0x54#8, 0x55#8, 0x56#8]
  | 9 => [0x39#8, 0x57#8, 0x58#8, 0x59#8, 0x5A#8]

/-- The stage a count selects in a list of `n` characters, `min(h div 2500, n - 1)` (41_keypad_decoder.md rule R125). -/
def stage (h : BitVec 14) (n : Nat) : Nat := min (h.toNat / stageStep) (n - 1)

/-- The character a digit key selects at count `h` (41_keypad_decoder.md rules R125 to R127). The list is never empty and the
stage is within it, so the fallback is never taken. -/
def tapChar (d : Fin 10) (h : BitVec 14) : CharCode :=
  (charList d).getD (stage h (charList d).length) blank

end Sys2Proof.Machine
end

