-- ==== Sys2Proof/WellFormed.lean ====
section
/-! DEFINITION. Which operations have an encoding: every index operand fits its field. -/

namespace Sys2Proof

/-- The index operands fit the free fields of their rows (30_encoding.md rule R84): `idx = addr[2:0]` is 0..7 and
`addr[1:0]` is 0..3. Every 16-bit data word and sample map is legal (rule R75). -/
def Instr.wellFormed : Instr → Bool
  | .nop => true
  | .tick => true
  | .kpscan _ => true
  | .idleto => true
  | .rdVb idx => decide (idx < 8)
  | .rdCursor => true
  | .rdCchar => true
  | .rdBtn => true
  | .rdHd => true
  | .rdRsvd lo => decide (lo < 4)
  | .wrVb idx _ => decide (idx < 8)
  | .wrCursor _ => true
  | .wrCchar _ => true
  | .ackBtn _ => true
  | .clrHd _ => true
  | .wrRsvd lo _ => decide (lo < 4)
  | .reset => true

/-- `wellFormed` as a proposition. -/
abbrev Instr.WellFormed (i : Instr) : Prop := i.wellFormed = true

end Sys2Proof
end

