-- ==== Sys2Proof/Decode.lean ====
section
/-! DEFINITION. The decoder of stimulus words, total, rejecting by name; then the encoder, the opcode map, and the host's
view of the decoder (30_encoding.md rules R71 to R76 and R84). -/

namespace Sys2Proof

/-- The field `cls = [23:21]` (30_encoding.md rule R71). -/
def clsField (w : Stimulus) : BitVec 3 := w.extractLsb' 21 3

/-- The field `z = [20]` (30_encoding.md rule R71). -/
def zField (w : Stimulus) : BitVec 1 := w.extractLsb' 20 1

/-- The field `addr = [19:16]` (30_encoding.md rule R71). -/
def addrField (w : Stimulus) : RegAddr := w.extractLsb' 16 4

/-- The field `data = [15:0]` (30_encoding.md rule R71). -/
def dataField (w : Stimulus) : Word := w.extractLsb' 0 16

/-- The word `{cls, z, addr, data}` with `z = 0` (30_encoding.md rule R71, format W). -/
def formatW (cls : BitVec 3) (addr : RegAddr) (data : Word) : Stimulus := cls ++ 0#1 ++ addr ++ data

/-- The class code (30_encoding.md rule R72). -/
def classCode : OpClass → BitVec 3
  | .nop => 0b000#3
  | .tick => 0b001#3
  | .kpscan => 0b010#3
  | .idleto => 0b011#3
  | .hostrd => 0b100#3
  | .hostwr => 0b101#3
  | .reset => 0b111#3

/-- The class a code names; 110 names none (30_encoding.md rule R72). -/
def classOf (c : BitVec 3) : Option OpClass :=
  if c = 0b000#3 then some .nop
  else if c = 0b001#3 then some .tick
  else if c = 0b010#3 then some .kpscan
  else if c = 0b011#3 then some .idleto
  else if c = 0b100#3 then some .hostrd
  else if c = 0b101#3 then some .hostwr
  else if c = 0b111#3 then some .reset
  else none

/-- The slot index `addr[2:0]` of the visible-buffer window (30_encoding.md rule R74). -/
def vbIndex (addr : RegAddr) : Nat := (addr.extractLsb' 0 3).toNat

/-- The free bits `addr[1:0]` of the reserved block (30_encoding.md rule R74). -/
def rsvdIndex (addr : RegAddr) : Nat := (addr.extractLsb' 0 2).toNat

/-- The address of index `idx` in the visible-buffer window, `addr[3] = 0` (30_encoding.md rule R74). -/
def vbAddr (idx : Nat) : RegAddr := 0#1 ++ BitVec.ofNat 3 idx

/-- The address of index `lo` in the reserved block, `addr[3:2] = 11` (30_encoding.md rule R74). -/
def rsvdAddr (lo : Nat) : RegAddr := 0b11#2 ++ BitVec.ofNat 2 lo

/-- The read that `addr` selects (30_encoding.md rule R74). -/
def readOp (addr : RegAddr) : Instr :=
  if addr.getLsbD 3 = false then .rdVb (vbIndex addr)
  else if addr = 0b1000#4 then .rdCursor
  else if addr = 0b1001#4 then .rdCchar
  else if addr = 0b1010#4 then .rdBtn
  else if addr = 0b1011#4 then .rdHd
  else .rdRsvd (rsvdIndex addr)

/-- The write that `addr` selects (30_encoding.md rule R74). -/
def writeOp (addr : RegAddr) (data : Word) : Instr :=
  if addr.getLsbD 3 = false then .wrVb (vbIndex addr) data
  else if addr = 0b1000#4 then .wrCursor data
  else if addr = 0b1001#4 then .wrCchar data
  else if addr = 0b1010#4 then .ackBtn data
  else if addr = 0b1011#4 then .clrHd data
  else .wrRsvd (rsvdIndex addr) data

/-- A word of a class that takes no address and no data (30_encoding.md rules R71 and R75). -/
def bareOp (i : Instr) (addr : RegAddr) (data : Word) : Except InvalidWord Instr :=
  if addr ≠ 0#4 then .error .addrNotZero
  else if data ≠ 0#16 then .error .dataNotZero
  else .ok i

/-- A word of class KPSCAN: no address, `data` is the sample map (30_encoding.md rule R75). -/
def scanOp (addr : RegAddr) (data : Word) : Except InvalidWord Instr :=
  if addr ≠ 0#4 then .error .addrNotZero else .ok (.kpscan data)

/-- A word of class HOSTRD: `data` must be 0 (30_encoding.md rule R75). -/
def hostReadOp (addr : RegAddr) (data : Word) : Except InvalidWord Instr :=
  if data ≠ 0#16 then .error .dataNotZero else .ok (readOp addr)

/-- The operation of a class with the given address and data (30_encoding.md rules R74 to R76). -/
def decodeClass (c : OpClass) (addr : RegAddr) (data : Word) : Except InvalidWord Instr :=
  match c with
  | .nop => bareOp .nop addr data
  | .tick => bareOp .tick addr data
  | .kpscan => scanOp addr data
  | .idleto => bareOp .idleto addr data
  | .hostrd => hostReadOp addr data
  | .hostwr => .ok (writeOp addr data)
  | .reset => bareOp .reset addr data

/-- The decoder of 30_encoding.md rule R76: total, every word either spells one operation or is refused by name. A word
refused for several reasons is refused by the first in the rule's order (DESIGN CHOICE, log 12). -/
def decode (w : Stimulus) : Except InvalidWord Instr :=
  match classOf (clsField w) with
  | none => .error .unassignedClass
  | some c => if zField w ≠ 0#1 then .error .zBitSet else decodeClass c (addrField w) (dataField w)

/-- The class, address and data of an operation's word (30_encoding.md rule R84). -/
def encodeFields : Instr → OpClass × RegAddr × Word
  | .nop => (.nop, 0#4, 0#16)
  | .tick => (.tick, 0#4, 0#16)
  | .kpscan m => (.kpscan, 0#4, m)
  | .idleto => (.idleto, 0#4, 0#16)
  | .rdVb idx => (.hostrd, vbAddr idx, 0#16)
  | .rdCursor => (.hostrd, 0b1000#4, 0#16)
  | .rdCchar => (.hostrd, 0b1001#4, 0#16)
  | .rdBtn => (.hostrd, 0b1010#4, 0#16)
  | .rdHd => (.hostrd, 0b1011#4, 0#16)
  | .rdRsvd lo => (.hostrd, rsvdAddr lo, 0#16)
  | .wrVb idx d => (.hostwr, vbAddr idx, d)
  | .wrCursor d => (.hostwr, 0b1000#4, d)
  | .wrCchar d => (.hostwr, 0b1001#4, d)
  | .ackBtn d => (.hostwr, 0b1010#4, d)
  | .clrHd d => (.hostwr, 0b1011#4, d)
  | .wrRsvd lo d => (.hostwr, rsvdAddr lo, d)
  | .reset => (.reset, 0#4, 0#16)

/-- The stimulus word of an operation (30_encoding.md rules R71 and R84). -/
def encode (i : Instr) : Stimulus :=
  formatW (classCode (encodeFields i).1) (encodeFields i).2.1 (encodeFields i).2.2

/-- A row of the opcode map: a word `w` selects it iff `w AND mask = pattern` (30_encoding.md rule R84). -/
structure OpcodeRow where
  mnemonic : String
  pattern : Stimulus
  mask : Stimulus
  deriving DecidableEq, Repr

/-- The opcode map as the spec prints it (30_encoding.md rule R84); the decoder above is written from the fields instead,
and the two must agree. -/
def opcodeMap : List OpcodeRow :=
  [ ⟨"NOP", 0x000000, 0xFFFFFF⟩,
    ⟨"TICK", 0x200000, 0xFFFFFF⟩,
    ⟨"KPSCAN", 0x400000, 0xFF0000⟩,
    ⟨"IDLETO", 0x600000, 0xFFFFFF⟩,
    ⟨"RD.VB", 0x800000, 0xF8FFFF⟩,
    ⟨"RD.CURSOR", 0x880000, 0xFFFFFF⟩,
    ⟨"RD.CCHAR", 0x890000, 0xFFFFFF⟩,
    ⟨"RD.BTN", 0x8A0000, 0xFFFFFF⟩,
    ⟨"RD.HD", 0x8B0000, 0xFFFFFF⟩,
    ⟨"RD.RSVD", 0x8C0000, 0xFCFFFF⟩,
    ⟨"WR.VB", 0xA00000, 0xF80000⟩,
    ⟨"WR.CURSOR", 0xA80000, 0xFF0000⟩,
    ⟨"WR.CCHAR", 0xA90000, 0xFF0000⟩,
    ⟨"ACK.BTN", 0xAA0000, 0xFF0000⟩,
    ⟨"CLR.HD", 0xAB0000, 0xFF0000⟩,
    ⟨"WR.RSVD", 0xAC0000, 0xFC0000⟩,
    ⟨"RESET", 0xE00000, 0xFFFFFF⟩ ]

/-- Whether a word selects a row (30_encoding.md rule R84). -/
def OpcodeRow.selects (r : OpcodeRow) (w : Stimulus) : Prop := w &&& r.mask = r.pattern

/-- The instruction the decoder reads from the low `nbits` bits of `w`, numbered as spec/opcode_table.json numbers them (bit 0
least significant). A stimulus word is one 24-bit value and is stored in no bytes (30_encoding.md rules R70 and R71), so there
is no byte order to lay out; a value of more than 24 bits is no stimulus word. -/
def decodeTableWord (nbits w : Nat) : Option Instr :=
  if w % 2 ^ nbits < 2 ^ 24 then
    match decode (BitVec.ofNat 24 (w % 2 ^ nbits)) with
    | .ok i => some i
    | .error _ => none
  else none

end Sys2Proof
end

