-- ==== Sys2Proof/Machine/Ops.lean ====
section
/-! DEFINITION. The operations every meaning is built from: taking the next input event, pin events and what they do to the pins
and to the display chain, the serial frame, the register space of the host port, and the reset of the registers.
The DMK takes no exception and returns from none (60_exceptions.md rules R170, R176 and R177), so no such operation is here. -/

namespace Sys2Proof.Machine

/-! ## Input events -/

/-- The next pending stimulus word and the state without it; none where no event is pending (log 1). -/
def fetch (s : State) : Option (Stimulus × State) :=
  match s.stimuli with
  | [] => none
  | w :: rest => some (w, { s with stimuli := rest })

/-- The state in which `w` is the next pending stimulus word, before those already pending. -/
def pushStimulus (w : Stimulus) (s : State) : State := { s with stimuli := w :: s.stimuli }

/-- Events that occur: `ws` join the pending stimulus words, after those already pending (log 34). -/
def arrive (ws : List Stimulus) (s : State) : State := { s with stimuli := s.stimuli ++ ws }

/-! ## Pin events -/

/-- The one-hot mask of digit line `i`. -/
def digitMask (i : Slot) : BitVec 6 := 1#6 <<< i.val

/-- The one-hot mask of row line `r`. -/
def rowMask (r : Fin 4) : BitVec 4 := 1#4 <<< r.val

/-- `SER_SCK <- 1`. -/
def raiseSck (p : Pins) : Pins := { p with serSck := true }

/-- `SER_SCK <- 0`. -/
def lowerSck (p : Pins) : Pins := { p with serSck := false }

/-- `SER_LCK <- 1`. -/
def raiseLck (p : Pins) : Pins := { p with serLck := true }

/-- `SER_LCK <- 0`. -/
def lowerLck (p : Pins) : Pins := { p with serLck := false }

/-- The reset levels of the output pins (10_state.md rule R46). -/
def resetPins : Pins :=
  { digN := 0b111111#6, serData := false, serSck := false, serLck := false, rowN := 0b0000#4 }

/-- The pin levels after an event (10_state.md rules R41 to R43). A digit event acts on its own line alone
(40_display_mux.md rule R106); a pulse is a clock raised and lowered; a sample changes no output. -/
def pinsAfter (e : PinEvent) (p : Pins) : Pins :=
  match e with
  | .digOff i => { p with digN := p.digN ||| digitMask i }
  | .data b => { p with serData := b }
  | .shift => lowerSck (raiseSck p)
  | .latch => lowerLck (raiseLck p)
  | .digOn i => { p with digN := p.digN &&& ~~~(digitMask i) }
  | .row r => { p with rowN := ~~~(rowMask r) }
  | .cols _ _ => p
  | .park => { p with rowN := 0b0000#4 }
  | .pinsReset => resetPins

/-- `(XS >> 1) | (SER_DATA << 15)` (10_state.md rule R44). -/
def shiftIn (xs : Word) (serData : Bool) : Word :=
  (xs >>> 1) ||| ((BitVec.ofBool serData).setWidth 16 <<< 15)

/-- The display chain after an event: a shift pulse moves SER_DATA into XS, a latch pulse copies XS to XL, and nothing else,
PinsReset included, changes it (10_state.md rule R44, 70_reset_and_hazards.md rule R190). -/
def chainAfter (e : PinEvent) (serData : Bool) (c : Chain) : Chain :=
  match e with
  | .digOff _ => c
  | .data _ => c
  | .shift => { c with xs := shiftIn c.xs serData }
  | .latch => { c with xl := c.xs }
  | .digOn _ => c
  | .row _ => c
  | .cols _ _ => c
  | .park => c
  | .pinsReset => c

/-- `trace(e)`: the pins and the display chain take the event, and the event joins the pin trace (10_state.md rule R43). -/
def trace (e : PinEvent) (s : State) : State :=
  { s with
    pins := pinsAfter e s.pins
    chain := chainAfter e s.pins.serData s.chain
    pinTrace := s.pinTrace ++ [e] }

/-- A sequence of pin events in order. -/
def traceAll (es : List PinEvent) (s : State) : State := es.foldl (fun t e => trace e t) s

/-- `disableDigit(i)` (10_state.md rule R41). -/
def disableDigit (i : Slot) (s : State) : State := trace (.digOff i) s

/-- `enableDigit(i)` (10_state.md rule R41). -/
def enableDigit (i : Slot) (s : State) : State := trace (.digOn i) s

/-! ## The serial frame -/

/-- The frame of a pattern: 16 data bits, least significant first, each with a shift pulse, then one latch pulse
(30_encoding.md rule R77). -/
def frame (p : Word) : List PinEvent :=
  (List.range 16).flatMap (fun i => [.data (p.getLsbD i), .shift]) ++ [.latch]

/-- `emit(p)`: SR is loaded and the frame goes out (40_display_mux.md rule R101). -/
def emit (p : Word) (s : State) : State := traceAll (frame p) { s with sr := p }

/-! ## The register space -/

/-- `RegRead(a)`: the zero-extended register at address `a`, 0 at a reserved address (20_memory.md rules R53 and R56). -/
def regRead (a : RegAddr) (s : State) : Word :=
  if h : a.toNat < 6 then (s.vb[a.toNat]).setWidth 16
  else if a = 0x8#4 then s.cursor.setWidth 16
  else if a = 0x9#4 then s.cchar.setWidth 16
  else if a = 0xA#4 then s.btn.setWidth 16
  else if a = 0xB#4 then s.hd.setWidth 16
  else 0x0000#16

/-- `RegWrite(a, v)`: the register at address `a` keeps the low bits of `v`; a write to BTN sets Idle, a write to HD sets 0,
a write to a reserved address has no effect (10_state.md rules R30 and R31, 20_memory.md rules R55 and R56). -/
def regWrite (a : RegAddr) (v : Word) (s : State) : State :=
  if h : a.toNat < 6 then { s with vb := s.vb.set a.toNat (v.setWidth 8) h }
  else if a = 0x8#4 then { s with cursor := v.setWidth 3 }
  else if a = 0x9#4 then { s with cchar := v.setWidth 8 }
  else if a = 0xA#4 then { s with btn := 1#4 }
  else if a = 0xB#4 then { s with hd := 0#14 }
  else s

/-- A host read: the word at `a` is returned and nothing else changes (42_host_port.md rule R150). -/
def hostRead (a : RegAddr) (s : State) : State := { s with reads := s.reads ++ [regRead a s] }

/-! ## Reset -/

/-- Every register at its reset value (10_state.md rule R46, 70_reset_and_hazards.md rule R190). -/
def resetRegisters (s : State) : State :=
  { s with
    vb := Vector.replicate 6 blank
    cursor := cursorNone
    cchar := placeholder
    btn := 0#4
    hd := 0#14
    activeSlot := 0
    aDown := false
    sr := 0x0000#16 }

end Sys2Proof.Machine
end

