-- ==== Sys2Proof/Machine/Display.lean ====
section
/-! DEFINITION. The display multiplexer's operation, TICK (40_display_mux.md). -/

namespace Sys2Proof.Machine

/-- TICK (40_display_mux.md rule R102): disable the active digit, emit the pattern of the character of the next slot, enable the
next digit, advance. The character is sampled once, from the state before (rule R103). -/
def execTick (s : State) : Host.Outcome State Fault Refusal :=
  let prev := s.activeSlot
  let next := nextSlot prev
  let ch := shownChar next s
  .next { enableDigit next (emit (patternFor ch) (disableDigit prev s)) with activeSlot := next }

end Sys2Proof.Machine
end

