-- ==== Sys2Proof/Machine/HostPort.lean ====
section
/-! DEFINITION. The host port's operations: register reads, register writes and NOP (42_host_port.md). -/

namespace Sys2Proof.Machine

/-- NOP (42_host_port.md rule R163): the identity. -/
def execNop (s : State) : Host.Outcome State Fault Refusal := .next s

/-- RD.VB (42_host_port.md rule R151). -/
def execRdVb (idx : Nat) (s : State) : Host.Outcome State Fault Refusal := .next (hostRead (vbAddr idx) s)

/-- RD.CURSOR (42_host_port.md rule R153). -/
def execRdCursor (s : State) : Host.Outcome State Fault Refusal := .next (hostRead 0x8#4 s)

/-- RD.CCHAR (42_host_port.md rule R155). -/
def execRdCchar (s : State) : Host.Outcome State Fault Refusal := .next (hostRead 0x9#4 s)

/-- RD.BTN (42_host_port.md rule R157): reading does not consume the event. -/
def execRdBtn (s : State) : Host.Outcome State Fault Refusal := .next (hostRead 0xA#4 s)

/-- RD.HD (42_host_port.md rule R159). -/
def execRdHd (s : State) : Host.Outcome State Fault Refusal := .next (hostRead 0xB#4 s)

/-- RD.RSVD (42_host_port.md rule R161): reads 0. -/
def execRdRsvd (lo : Nat) (s : State) : Host.Outcome State Fault Refusal := .next (hostRead (rsvdAddr lo) s)

/-- WR.VB (42_host_port.md rule R152). -/
def execWrVb (idx : Nat) (data : Word) (s : State) : Host.Outcome State Fault Refusal :=
  .next (regWrite (vbAddr idx) data s)

/-- WR.CURSOR (42_host_port.md rule R154). -/
def execWrCursor (data : Word) (s : State) : Host.Outcome State Fault Refusal := .next (regWrite 0x8#4 data s)

/-- WR.CCHAR (42_host_port.md rule R156). -/
def execWrCchar (data : Word) (s : State) : Host.Outcome State Fault Refusal := .next (regWrite 0x9#4 data s)

/-- ACK.BTN (42_host_port.md rule R158): BTN becomes Idle whatever the data. -/
def execAckBtn (data : Word) (s : State) : Host.Outcome State Fault Refusal := .next (regWrite 0xA#4 data s)

/-- CLR.HD (42_host_port.md rule R160): HD becomes 0 whatever the data. -/
def execClrHd (data : Word) (s : State) : Host.Outcome State Fault Refusal := .next (regWrite 0xB#4 data s)

/-- WR.RSVD (42_host_port.md rule R162): no effect. -/
def execWrRsvd (lo : Nat) (data : Word) (s : State) : Host.Outcome State Fault Refusal :=
  .next (regWrite (rsvdAddr lo) data s)

end Sys2Proof.Machine
end

