-- ==== Sys2Proof/Machine/Flags.lean ====
section
/-! DEFINITION. What a KPSCAN makes of a latched sample map: the advance of the held-duration counter, the event codes, and the
decode of the sixteen positions into a pending candidate, a pending event and the count to commit
(41_keypad_decoder.md rule R120, phases 2 and 3). -/

namespace Sys2Proof.Machine

/-- The code of a button event (10_state.md rule R32, 30_encoding.md rule R78). -/
def eventCode : ButtonEvent → BitVec 4
  | .none => 0#4
  | .idle => 1#4
  | .keyA => 2#4
  | .keyALongPress => 3#4
  | .keyB => 4#4
  | .keyC => 5#4
  | .keyD => 6#4
  | .keyHash => 7#4
  | .keyStar => 8#4

/-- The compare value `h`: one more than HD if any key is active, 0 at the ceiling, HD itself if none is
(41_keypad_decoder.md rule R123). -/
def advanceHd (m : SampleMap) (hd : BitVec 14) : BitVec 14 :=
  if m ≠ 0x0000#16 then (if hd + 1#14 = hdCeil then 0#14 else hd + 1#14) else hd

/-- The event of key A's release: short up to A_LONG, long beyond (41_keypad_decoder.md rule R130). -/
def releaseEvent (h : BitVec 14) : ButtonEvent := if h.toNat ≤ aLong then .keyA else .keyALongPress

/-- The pending writes of an invocation (41_keypad_decoder.md rule R120: `hd'`, `cand`, `evt`). -/
structure Pending where
  hd : BitVec 14
  cand : Option CharCode
  evt : Option ButtonEvent
  deriving DecidableEq, Repr

/-- Key 0: its character, and at its third stage the counter is to be cleared (41_keypad_decoder.md rule R127). -/
def pressZero (h : BitVec 14) (p : Pending) : Pending :=
  if h.toNat < stageStep then { p with cand := some 0x30#8 }
  else if h.toNat < 2 * stageStep then { p with cand := some 0x20#8 }
  else { p with cand := some 0x30#8, hd := 0#14 }

/-- An active key: a digit key sets the candidate, a command key other than A sets the event, A sets nothing
(41_keypad_decoder.md rules R125 to R130). -/
def pressKey (l : KeyLabel) (h : BitVec 14) (p : Pending) : Pending :=
  match l with
  | .digit d => if d = 0 then pressZero h p else { p with cand := some (tapChar d h) }
  | .a => p
  | .b => { p with evt := some .keyB }
  | .c => { p with evt := some .keyC }
  | .d => { p with evt := some .keyD }
  | .star => { p with evt := some .keyStar }
  | .hash => { p with evt := some .keyHash }

/-- The decode of position `k` (41_keypad_decoder.md rule R120, body of phase 3): an active key is pressed; key A inactive after
having been active is its release edge. -/
def decodeKey (m : SampleMap) (aDown : Bool) (h : BitVec 14) (p : Pending) (k : KeyPos) : Pending :=
  if m.getLsbD k.val = true then pressKey (keymap k) h p
  else if keymap k = .a ∧ aDown = true then { p with evt := some (releaseEvent h) }
  else p

/-- Phase 3: the positions in ascending order, the last write of each slot winning (41_keypad_decoder.md rule R124). -/
def decodeKeys (m : SampleMap) (aDown : Bool) (h : BitVec 14) : Pending :=
  (List.finRange 16).foldl (decodeKey m aDown h) { hd := h, cand := none, evt := none }

end Sys2Proof.Machine
end

