-- ==== Sys2Proof/Machine/Keypad.lean ====
section
/-! DEFINITION. The keypad decoder's operations, KPSCAN and IDLETO (41_keypad_decoder.md). -/

namespace Sys2Proof.Machine

/-- KPSCAN (41_keypad_decoder.md rule R120): scan, count, decode, then commit HD, CCHAR, BTN and aDown at one instant
(rules R131 to R134). -/
def execKpscan (sample : SampleMap) (s : State) : Host.Outcome State Fault Refusal :=
  let m := latchedMap sample
  let h := advanceHd m s.hd
  let p := decodeKeys m s.aDown h
  .next { traceAll (scanEvents sample) s with
    hd := p.hd
    cchar := p.cand.getD s.cchar
    btn := (p.evt.map eventCode).getD s.btn
    aDown := m.getLsbD (keyPos .a).val }

/-- IDLETO (41_keypad_decoder.md rule R136): HD becomes 0. -/
def execIdleto (s : State) : Host.Outcome State Fault Refusal := .next { s with hd := 0 }

end Sys2Proof.Machine
end

