-- ==== Sys2Proof/Machine/Reset.lean ====
section
/-! DEFINITION. The reset operation, RESET (70_reset_and_hazards.md). -/

namespace Sys2Proof.Machine

/-- RESET (70_reset_and_hazards.md rule R190): every register and every output pin to its reset value, one event on the trace;
XS and XL are not changed. -/
def execReset (s : State) : Host.Outcome State Fault Refusal := .next (trace .pinsReset (resetRegisters s))

end Sys2Proof.Machine
end

