-- ==== Sys2Proof/Machine/Dispatch.lean ====
section
/-! DEFINITION. The meaning of each operation, one arm per constructor. -/

namespace Sys2Proof.Machine

def exec (i : Instr) (s : State) : Host.Outcome State Fault Refusal :=
  match i with
  | .nop => Sys2Proof.Machine.execNop s
  | .tick => Sys2Proof.Machine.execTick s
  | .kpscan m => Sys2Proof.Machine.execKpscan m s
  | .idleto => Sys2Proof.Machine.execIdleto s
  | .rdVb idx => Sys2Proof.Machine.execRdVb idx s
  | .rdCursor => Sys2Proof.Machine.execRdCursor s
  | .rdCchar => Sys2Proof.Machine.execRdCchar s
  | .rdBtn => Sys2Proof.Machine.execRdBtn s
  | .rdHd => Sys2Proof.Machine.execRdHd s
  | .rdRsvd lo => Sys2Proof.Machine.execRdRsvd lo s
  | .wrVb idx d => Sys2Proof.Machine.execWrVb idx d s
  | .wrCursor d => Sys2Proof.Machine.execWrCursor d s
  | .wrCchar d => Sys2Proof.Machine.execWrCchar d s
  | .ackBtn d => Sys2Proof.Machine.execAckBtn d s
  | .clrHd d => Sys2Proof.Machine.execClrHd d s
  | .wrRsvd lo d => Sys2Proof.Machine.execWrRsvd lo d s
  | .reset => Sys2Proof.Machine.execReset s

end Sys2Proof.Machine
end

