-- ==== Sys2Proof/Machine/Step.lean ====
section
/-! DEFINITION. One step of the machine: one operation (00_scope.md rule R3). -/

namespace Sys2Proof.Machine

/-- Take the next pending input event and perform its operation. With none pending no event occurs in this step, which is NOP
(42_host_port.md rule R163; log 1). A word that spells no operation is refused (30_encoding.md rule R76). -/
def step (s : State) : Host.Outcome State Fault Refusal :=
  match fetch s with
  | none => exec .nop s
  | some (w, t) =>
    match decode w with
    | .ok i => exec i t
    | .error r => .refused (.noOperation r)

/-- `s` with the stimulus word in the low `nbits` bits of `w` as the next input event, before those already pending. -/
def State.withFetchWord (s : State) (nbits w : Nat) : State :=
  pushStimulus (BitVec.ofNat 24 (w % 2 ^ nbits)) s

end Sys2Proof.Machine
end

