-- ==== Sys2Proof/Safety.lean ====
section
/-! DEFINITION. The terms claims use: runs of operations, infinite runs and their fairness, the invariant of reachable states, and the replay of a pin trace. -/

namespace Sys2Proof.Machine

/-- Operations performed in order, stopping at the first that has no next state. -/
def runOps : List Instr → State → Host.Outcome State Fault Refusal
  | [], s => .next s
  | i :: is, s =>
    match exec i s with
    | .next t => runOps is t
    | .fault r => .fault r
    | .refused r => .refused r

/-- The operation a step performs: what the next pending stimulus word decodes to, NOP where none is pending, none where the
word spells no operation. -/
def performed (s : State) : Option Instr :=
  match fetch s with
  | none => some .nop
  | some (w, _) =>
    match decode w with
    | .ok i => some i
    | .error _ => none

/-- A run (00_scope.md rule R5: it has no end): at every index the events `arr n` occur and the machine takes one step, from
`run n` to `run (n + 1)`. The environment chooses `arr`, any number of events of any agent at every index (log 34). -/
def IsRun (arr : Nat → List Stimulus) (run : Nat → State) : Prop :=
  ∀ n, step (arrive (arr n) (run n)) = .next (run (n + 1))

/-- The operation performed at index `n` of a run. -/
def performedAt (arr : Nat → List Stimulus) (run : Nat → State) (n : Nat) : Option Instr :=
  performed (arrive (arr n) (run n))

/-- A fair run contains infinitely many TICKs (40_display_mux.md rule R108): after every index one is performed. -/
def Fair (arr : Nat → List Stimulus) (run : Nat → State) : Prop :=
  ∀ n, ∃ m, n ≤ m ∧ performedAt arr run m = some .tick

/-- What 10_state.md rule R47 says of every reachable state. -/
structure StateInv (s : State) : Prop where
  slot_le : s.activeSlot.val ≤ 5
  hd_le : s.hd.toNat ≤ 12499
  btn_le : s.btn.toNat ≤ 8
  /-- A digit line that is low is the active slot's; so at most one is low. -/
  low_is_active : ∀ i : Slot, s.pins.digN.getLsbD i.val = false → i = s.activeSlot
  sck_low : s.pins.serSck = false
  lck_low : s.pins.serLck = false

/-- The pins and the display chain after a sequence of pin events, from given ones. -/
def boardAfter (es : List PinEvent) (p : Pins) (c : Chain) : Pins × Chain :=
  es.foldl (fun b e => (pinsAfter e b.1, chainAfter e b.1.serData b.2)) (p, c)

/-- The pins and the display chain are what the pin trace makes of `p` and `c`: nothing moves a pin without an event of the
trace (10_state.md rule R43). -/
def TraceExplains (p : Pins) (c : Chain) (s : State) : Prop := boardAfter s.pinTrace p c = (s.pins, s.chain)

/-- The pin events that `t` has beyond those of `s`. -/
def eventsSince (s t : State) : List PinEvent := t.pinTrace.drop s.pinTrace.length

/-- The slots enabled by a sequence of pin events, in order. -/
def digOns (es : List PinEvent) : List Slot :=
  es.filterMap (fun e => match e with
    | .digOn i => some i
    | .digOff _ => none
    | .data _ => none
    | .shift => none
    | .latch => none
    | .row _ => none
    | .cols _ _ => none
    | .park => none
    | .pinsReset => none)

/-- At most one digit line is low (10_state.md rule R47, 40_display_mux.md rule R107). -/
def AtMostOneLow (digN : BitVec 6) : Prop :=
  ∀ i j : Slot, digN.getLsbD i.val = false → digN.getLsbD j.val = false → i = j

/-- Whether an event moves a row line or samples the columns; the other events are the display's
(60_exceptions.md rule R175: TICK and KPSCAN drive disjoint pins). -/
def isRowEvent : PinEvent → Bool
  | .digOn _ => false
  | .digOff _ => false
  | .data _ => false
  | .shift => false
  | .latch => false
  | .row _ => true
  | .cols _ _ => true
  | .park => true
  | .pinsReset => false

/-- The compare value `h` of an invocation as a number: HD if no key is active, else one more, 0 at 12500
(41_keypad_decoder.md rule R123). -/
def heldCount (m : SampleMap) (hd : BitVec 14) : Nat :=
  if m = 0#16 then hd.toNat else if hd.toNat + 1 = 12500 then 0 else hd.toNat + 1

/-- Whether a digit key is active at a matrix position (41_keypad_decoder.md rule R137). -/
def digitActive (m : SampleMap) (k : KeyPos) : Bool :=
  m.getLsbD k.val && (match keymap k with
    | .digit _ => true
    | .a => false
    | .b => false
    | .c => false
    | .d => false
    | .star => false
    | .hash => false)

/-- The event a matrix position produces: a command key other than A while active, key A in the invocation that finds it
released (41_keypad_decoder.md rules R129, R130 and R137). -/
def eventAt (m : SampleMap) (aDown : Bool) (h : Nat) (k : KeyPos) : Option ButtonEvent :=
  match keymap k with
  | .digit _ => none
  | .a => if aDown && !m.getLsbD k.val then some (if h ≤ 4000 then .keyA else .keyALongPress) else none
  | .b => if m.getLsbD k.val then some .keyB else none
  | .c => if m.getLsbD k.val then some .keyC else none
  | .d => if m.getLsbD k.val then some .keyD else none
  | .star => if m.getLsbD k.val then some .keyStar else none
  | .hash => if m.getLsbD k.val then some .keyHash else none

/-- The host reads (42_host_port.md rule R150). -/
def isHostRead : Instr → Bool
  | .nop => false
  | .tick => false
  | .kpscan _ => false
  | .idleto => false
  | .rdVb _ => true
  | .rdCursor => true
  | .rdCchar => true
  | .rdBtn => true
  | .rdHd => true
  | .rdRsvd _ => true
  | .wrVb _ _ => false
  | .wrCursor _ => false
  | .wrCchar _ => false
  | .ackBtn _ => false
  | .clrHd _ => false
  | .wrRsvd _ _ => false
  | .reset => false

/-- The host writes (42_host_port.md rule R150). -/
def isHostWrite : Instr → Bool
  | .nop => false
  | .tick => false
  | .kpscan _ => false
  | .idleto => false
  | .rdVb _ => false
  | .rdCursor => false
  | .rdCchar => false
  | .rdBtn => false
  | .rdHd => false
  | .rdRsvd _ => false
  | .wrVb _ _ => true
  | .wrCursor _ => true
  | .wrCchar _ => true
  | .ackBtn _ => true
  | .clrHd _ => true
  | .wrRsvd _ _ => true
  | .reset => false

/-- The registers a host can read (10_state.md rule R30) and what it has read. -/
def hostView (s : State) : Vector CharCode 6 × BitVec 3 × CharCode × BitVec 4 × BitVec 14 × List Word :=
  (s.vb, s.cursor, s.cchar, s.btn, s.hd, s.reads)

end Sys2Proof.Machine
end

