-- ==== Sys2Proof/Certificates/Slice0/Obligations.lean ====
section
/-! DEFINITION. The statements for the provers. Each docstring names the rule of spec/ it formalises. -/

open Sys2Proof Sys2Proof.Machine

/-! ## Encoding -/

/-- Words of 95_test_vectors.md section 2.5, written out from their fields, decode as listed there. -/
def Obligations.SampleWordsDecode : Prop :=
  decode 0b001_0_0000_0000000000000000#24 = .ok .tick ∧
  decode 0b010_0_0000_1111111111111111#24 = .ok (.kpscan 0xFFFF#16) ∧
  decode 0b011_0_0000_0000000000000000#24 = .ok .idleto ∧
  decode 0b100_0_0111_0000000000000000#24 = .ok (.rdVb 7) ∧
  decode 0b100_0_1110_0000000000000000#24 = .ok (.rdRsvd 2) ∧
  decode 0b101_0_1111_1111111111111111#24 = .ok (.wrRsvd 3 0xFFFF#16) ∧
  decode 0b111_0_0000_0000000000000000#24 = .ok .reset ∧
  decode 0b000_0_0000_0000000000000000#24 = .ok .nop ∧
  decode 0b001_0_0001_0000000000000000#24 = .error .addrNotZero ∧
  decode 0b001_0_0000_0000000000000001#24 = .error .dataNotZero ∧
  decode 0b101_1_0000_0000000000000000#24 = .error .zBitSet ∧
  decode 0b110_0_0001_0010001101000101#24 = .error .unassignedClass

/-- Every operation whose operands fit its fields is decoded from its own word (30_encoding.md sections 1 and 2). -/
def Obligations.DecodeOfEncode : Prop :=
  ∀ i : Instr, i.WellFormed → decode (encode i) = .ok i

/-- Every accepted word is the word of the operation it spells: no word has two meanings and no operation two words
(30_encoding.md sections 1 and 2). -/
def Obligations.EncodeOfDecode : Prop :=
  ∀ (w : Stimulus) (i : Instr), decode w = .ok i → i.WellFormed ∧ encode i = w

/-- 30_encoding.md rule R76: the words that spell no operation are exactly those the rule lists; every other word selects
exactly one row of the opcode map; a word that spells none is refused; the reserved register addresses select operations that
read 0 and write nothing. -/
def Obligations.RefusedWordsAreExactlyTheInvalidOnes : Prop :=
  (∀ w : Stimulus,
    (∃ r, decode w = .error r) ↔
      (w.extractLsb' 21 3 = 0b110#3 ∨ w.extractLsb' 20 1 = 1#1 ∨
        (w.extractLsb' 16 4 ≠ 0#4 ∧ w.extractLsb' 21 3 ∈ [0b000#3, 0b001#3, 0b010#3, 0b011#3, 0b111#3]) ∨
        (w.extractLsb' 0 16 ≠ 0#16 ∧ w.extractLsb' 21 3 ∈ [0b000#3, 0b001#3, 0b011#3, 0b100#3, 0b111#3]))) ∧
  (∀ (w : Stimulus) (i : Instr), decode w = .ok i → ∃ r ∈ opcodeMap, r.selects w ∧ ∀ r' ∈ opcodeMap, r'.selects w → r' = r) ∧
  (∀ (w : Stimulus) (r : InvalidWord), decode w = .error r → ∀ r' ∈ opcodeMap, ¬ r'.selects w) ∧
  (∀ (w : Stimulus) (r : InvalidWord) (s : State) (rest : List Stimulus), s.stimuli = w :: rest → decode w = .error r →
    step s = .refused (.noOperation r)) ∧
  (∀ (idx : Nat) (d : Word) (s : State), idx = 6 ∨ idx = 7 →
    decode (0x800000#24 + BitVec.ofNat 24 (idx * 0x10000)) = .ok (.rdVb idx) ∧
    decode (0xA00000#24 + BitVec.ofNat 24 (idx * 0x10000) + d.setWidth 24) = .ok (.wrVb idx d) ∧
    exec (.rdVb idx) s = .next { s with reads := s.reads ++ [0x0000#16] } ∧ exec (.wrVb idx d) s = .next s) ∧
  (∀ (lo : Nat) (d : Word) (s : State), lo < 4 →
    decode (0x8C0000#24 + BitVec.ofNat 24 (lo * 0x10000)) = .ok (.rdRsvd lo) ∧
    decode (0xAC0000#24 + BitVec.ofNat 24 (lo * 0x10000) + d.setWidth 24) = .ok (.wrRsvd lo d) ∧
    exec (.rdRsvd lo) s = .next { s with reads := s.reads ++ [0x0000#16] } ∧ exec (.wrRsvd lo d) s = .next s)

/-- 30_encoding.md rule R84: seventeen disjoint rows; a word selects a row iff it decodes to an operation of the row's
mnemonic; the free fields are the operands. -/
def Obligations.OpcodeMapIsTheDecoder : Prop :=
  opcodeMap.length = 17 ∧
  (∀ r ∈ opcodeMap, ∀ r' ∈ opcodeMap, ∀ w : Stimulus, r.selects w → r'.selects w → r = r') ∧
  (∀ (w : Stimulus), ∀ r ∈ opcodeMap, r.selects w ↔ ∃ i, decode w = .ok i ∧ i.mnemonic = r.mnemonic) ∧
  (∀ m : SampleMap, decode (0x400000#24 + m.setWidth 24) = .ok (.kpscan m)) ∧
  (∀ idx : Nat, idx < 8 → decode (0x800000#24 + BitVec.ofNat 24 (idx * 0x10000)) = .ok (.rdVb idx)) ∧
  (∀ lo : Nat, lo < 4 → decode (0x8C0000#24 + BitVec.ofNat 24 (lo * 0x10000)) = .ok (.rdRsvd lo)) ∧
  (∀ (idx : Nat) (d : Word), idx < 8 →
    decode (0xA00000#24 + BitVec.ofNat 24 (idx * 0x10000) + d.setWidth 24) = .ok (.wrVb idx d)) ∧
  (∀ d : Word, decode (0xA80000#24 + d.setWidth 24) = .ok (.wrCursor d)) ∧
  (∀ d : Word, decode (0xA90000#24 + d.setWidth 24) = .ok (.wrCchar d)) ∧
  (∀ d : Word, decode (0xAA0000#24 + d.setWidth 24) = .ok (.ackBtn d)) ∧
  (∀ d : Word, decode (0xAB0000#24 + d.setWidth 24) = .ok (.clrHd d)) ∧
  (∀ (lo : Nat) (d : Word), lo < 4 →
    decode (0xAC0000#24 + BitVec.ofNat 24 (lo * 0x10000) + d.setWidth 24) = .ok (.wrRsvd lo d))

/-! ## The step -/

/-- When the next pending stimulus word decodes to an operation, the step is that operation on the state without the word
(30_encoding.md section 1: one stimulus word is one operation is one step). That the pending words are a list in State is the
model's choice (log 1). -/
def Obligations.StepRunsTheDecodedOperation : Prop :=
  ∀ (s : State) (w : Stimulus) (rest : List Stimulus) (i : Instr),
    s.stimuli = w :: rest → decode w = .ok i → step s = exec i { s with stimuli := rest }

/-- With no event pending a step changes nothing. The MODEL's choice (log 1): the spec gives a step without an event the
meaning NOP (42_host_port.md section 6) and leaves the schedule to the environment. -/
def Obligations.StepWithoutEventChangesNothing : Prop :=
  ∀ s : State, s.stimuli = [] → step s = .next s

/-- 60_exceptions.md rule R170: every operation is defined for every state and every operand value and always completes, and
no step ends in a fault. -/
def Obligations.EveryOperationCompletes : Prop :=
  (∀ (i : Instr) (s : State), ∃ t, exec i s = .next t) ∧ (∀ (s : State) (f : Fault), step s ≠ .fault f)

/-- A step takes back nothing of the two records and consumes at most the next event. The pin trace is a list that events are
appended to (10_state.md sections 5 and 7). That the words read are a list too, which only grows and which RESET does not erase, is
the MODEL's choice (log 11), and so is the list of pending events (log 1). -/
def Obligations.StepOnlyExtendsObservations : Prop :=
  ∀ s t : State, step s = .next t →
    s.pinTrace <+: t.pinTrace ∧ s.reads <+: t.reads ∧ t.stimuli = s.stimuli.tail

/-! ## Invariants -/

/-- Every step keeps what 10_state.md section 8 says of reachable states. -/
def Obligations.StepKeepsStateInv : Prop :=
  ∀ s t : State, StateInv s → step s = .next t → StateInv t

/-- The state after reset satisfies it. -/
def Obligations.ResetSatisfiesStateInv : Prop := StateInv State.reset

/-- It holds in every state reachable from reset, whatever events occur and in whatever order (10_state.md section 8, which the
spec marks as its own derivation). -/
def Obligations.ReachableStatesSatisfyStateInv : Prop :=
  ∀ (ws : List Stimulus) (n : Nat) (t : State),
    Host.Core.run Sys2Proof.core n { State.reset with stimuli := ws } = .next t →
      t.activeSlot.val ≤ 5 ∧ t.hd.toNat ≤ 12499 ∧ t.btn.toNat ≤ 8 ∧ AtMostOneLow t.pins.digN ∧
        (∀ i : Slot, t.pins.digN.getLsbD i.val = false → i = t.activeSlot) ∧
        t.pins.serSck = false ∧ t.pins.serLck = false

/-- Every step keeps the pins and the display chain equal to what the pin trace makes of the levels before it: no operation
moves a pin without an event (10_state.md section 5). -/
def Obligations.StepKeepsTraceExplainsPins : Prop :=
  ∀ (p : Pins) (c : Chain) (s t : State), TraceExplains p c s → step s = .next t → TraceExplains p c t

/-- The state after reset satisfies it, whatever the pins were before (10_state.md sections 5 and 7). That the chain holds the
constants of log 4 is the model's choice. -/
def Obligations.ResetTraceExplainsPins : Prop :=
  ∀ p : Pins, TraceExplains p { xs := Config.powerOnXs, xl := Config.powerOnXl } State.reset

/-! ## TICK -/

/-- The whole effect of TICK: the digit of the old slot off, the frame of the character of the next slot, the digit of the next
slot on; everything not named is unchanged (40_display_mux.md section 2). -/
def Obligations.TickShowsTheNextSlot : Prop :=
  ∀ s : State,
    let next : Slot := s.activeSlot + 1
    let ch : CharCode := if s.cursor.toNat = next.val then s.cchar else s.vb[next.val]
    let p : Word := patternFor ch
    exec .tick s = .next { s with
      activeSlot := next
      sr := p
      pins := { s.pins with
        digN := (s.pins.digN ||| (1#6 <<< s.activeSlot.val)) &&& ~~~(1#6 <<< next.val)
        serData := p.getLsbD 15
        serSck := false
        serLck := false }
      chain := { xs := p, xl := p }
      pinTrace := s.pinTrace ++ [.digOff s.activeSlot] ++
        (List.range 16).flatMap (fun i => [.data (p.getLsbD i), .shift]) ++ [.latch, .digOn next] }

/-- 40_display_mux.md rule R105: TICK advances the slot by one and from 5 to 0; RESET sets it to 0; no other operation and no
register write alters it. -/
def Obligations.OnlyTickAndResetMoveTheSlot : Prop :=
  (∀ s : State, ∃ t, exec .tick s = .next t ∧
    t.activeSlot.val = if s.activeSlot.val < 5 then s.activeSlot.val + 1 else 0) ∧
  (∀ s : State, ∃ t, exec .reset s = .next t ∧ t.activeSlot.val = 0) ∧
  (∀ (i : Instr) (s t : State), exec i s = .next t → i ≠ .tick → i ≠ .reset → t.activeSlot = s.activeSlot)

/-- The order of the events of a TICK; between DigOff and DigOn all six digit lines are 1; XL changes only at Latch, with no
digit enabled; the other operations leave the chain alone, so an enabled digit shows one pattern from its DigOn to its DigOff
(40_display_mux.md section 2, whose consequences of the order the spec marks as its own derivation). -/
def Obligations.TickDisablesEmitsEnables : Prop :=
  (∀ s : State, StateInv s → ∃ t p next, exec .tick s = .next t ∧
    eventsSince s t = .digOff s.activeSlot :: frame p ++ [.digOn next] ∧ (eventsSince s t).length = 35 ∧
    (∀ n, 1 ≤ n → n ≤ 34 →
      (boardAfter ((eventsSince s t).take n) s.pins s.chain).1.digN = 0b111111#6) ∧
    (∀ n, n ≤ 33 → (boardAfter ((eventsSince s t).take n) s.pins s.chain).2.xl = s.chain.xl) ∧
    (∀ n, 34 ≤ n → (boardAfter ((eventsSince s t).take n) s.pins s.chain).2.xl = p)) ∧
  (∀ (i : Instr) (s t : State), exec i s = .next t → i ≠ .tick → t.chain = s.chain)

/-- 40_display_mux.md rule R106: a digit primitive moves its own line and no other; TICK is the only operation that enables
a digit. -/
def Obligations.DigitLinesMoveAlone : Prop :=
  (∀ (s : State) (i j : Slot), (disableDigit i s).pins.digN.getLsbD j.val = (if j = i then true else s.pins.digN.getLsbD j.val)) ∧
  (∀ (s : State) (i j : Slot), (enableDigit i s).pins.digN.getLsbD j.val = (if j = i then false else s.pins.digN.getLsbD j.val)) ∧
  (∀ (i : Instr) (s t : State), exec i s = .next t → i ≠ .tick →
    digOns (eventsSince s t) = [] ∧
      ∀ j : Slot, s.pins.digN.getLsbD j.val = true → t.pins.digN.getLsbD j.val = true)

/-- The refresh cycle of 40_display_mux.md section 2 (the spec's own derivation): over six consecutive TICKs, whatever other operations but RESET fall between them, each digit is
enabled exactly once, in cyclic order from the slot after the active one, and at no point of the trace are two digits enabled. -/
def Obligations.SixTicksEnableEachDigitOnce : Prop :=
  ∀ (ops : List Instr) (s : State), StateInv s → Instr.reset ∉ ops → ops.count .tick = 6 →
    ∃ t, runOps ops s = .next t ∧
      digOns (eventsSince s t) =
        [s.activeSlot + 1, s.activeSlot + 2, s.activeSlot + 3, s.activeSlot + 4, s.activeSlot + 5, s.activeSlot + 6] ∧
      (∀ i : Slot, (digOns (eventsSince s t)).count i = 1) ∧
      ∀ n : Nat, AtMostOneLow (boardAfter ((eventsSince s t).take n) s.pins s.chain).1.digN

/-- 40_display_mux.md rule R100: the pattern lookup is unlit outside the supported codes and for the space, and is the open
table's entry for the other 37. -/
def Obligations.PatternLookupContract : Prop :=
  ∀ c : CharCode,
    let inSet : Prop := c = 0x20#8 ∨ (0x30 ≤ c.toNat ∧ c.toNat ≤ 0x39) ∨ (0x41 ≤ c.toNat ∧ c.toNat ≤ 0x5A) ∨ c = 0x5F#8
    (¬ inSet → patternFor c = 0x0000#16) ∧ (c = 0x20#8 → patternFor c = 0x0000#16) ∧
      (inSet → c ≠ 0x20#8 → patternFor c = Config.segTable c)

/-- Emitting a pattern again sends the same frame and leaves the same final XL (40_display_mux.md section 1, the spec's own
derivation). -/
def Obligations.EmitIsIdempotentInItsResult : Prop :=
  ∀ (c : CharCode) (s : State),
    let t := emit (patternFor c) s
    let u := emit (patternFor c) t
    eventsSince s t = frame (patternFor c) ∧ eventsSince t u = eventsSince s t ∧ u.chain.xl = t.chain.xl

/-- A written character is on its digit within six TICKs, and so is the cursor character on the cursor's slot
(20_memory.md section 5); and in a fair run (40_display_mux.md section 2: it contains infinitely many TICKs) without RESET every
digit is enabled again after every index. That events arrive between steps is the model's choice (log 34). -/
def Obligations.WriteIsVisibleWithinSixTicks : Prop :=
  (∀ (idx : Nat) (d : Word) (s : State), idx < 6 → s.cursor.toNat ≠ idx →
    ∃ n t, 1 ≤ n ∧ n ≤ 6 ∧ runOps (.wrVb idx d :: List.replicate n .tick) s = .next t ∧
      t.activeSlot.val = idx ∧ t.pins.digN.getLsbD idx = false ∧ t.chain.xl = patternFor (d.setWidth 8)) ∧
  (∀ (d : Word) (s : State), s.cursor.toNat < 6 →
    ∃ n t, 1 ≤ n ∧ n ≤ 6 ∧ runOps (.wrCchar d :: List.replicate n .tick) s = .next t ∧
      t.activeSlot.val = s.cursor.toNat ∧ t.pins.digN.getLsbD s.cursor.toNat = false ∧
      t.chain.xl = patternFor (d.setWidth 8)) ∧
  (∀ (arr : Nat → List Stimulus) (run : Nat → State), IsRun arr run → Fair arr run →
    (∀ n, performedAt arr run n ≠ some .reset) →
      ∀ (i : Slot) (n : Nat), ∃ m, n ≤ m ∧ performedAt arr run m = some .tick ∧
        (run (m + 1)).activeSlot = i ∧ (run (m + 1)).pins.digN.getLsbD i.val = false)

/-- Deleting the TICKs from a run of operations changes nothing a host can read: the multiplexer alters no host-visible
register (40_display_mux.md section 3), and the decoder's hidden bit does not depend on it either. -/
def Obligations.TicksAreInvisibleToTheHost : Prop :=
  ∀ (ops : List Instr) (s t : State), runOps ops s = .next t →
    ∃ u, runOps (ops.filter (fun i => decide (i ≠ .tick))) s = .next u ∧ hostView u = hostView t ∧ u.aDown = t.aDown

/-- A TICK that does not select the cursor slot and a KPSCAN commute on every register, pin and chain stage, and on the pin
events of each of the two (60_exceptions.md section 3). -/
def Obligations.TickAndScanCommute : Prop :=
  ∀ (m : SampleMap) (s : State), s.cursor.toNat ≠ (s.activeSlot + 1).val →
    ∃ t u, runOps [.tick, .kpscan m] s = .next t ∧ runOps [.kpscan m, .tick] s = .next u ∧
      u = { t with pinTrace := u.pinTrace } ∧
      (eventsSince s u).filter isRowEvent = (eventsSince s t).filter isRowEvent ∧
      (eventsSince s u).filter (fun e => !isRowEvent e) = (eventsSince s t).filter (fun e => !isRowEvent e)

/-! ## KPSCAN and IDLETO -/

/-- KPSCAN completes on every sample map in every state. It writes HD, CCHAR and BTN (the statements below say what), sets
aDown to key A's sample, appends the nine scan events, parks the rows, and changes nothing else
(41_keypad_decoder.md section 1). Key A is at position 3 (log 6). -/
def Obligations.ScanCompletesAndChangesOnlyDecoderState : Prop :=
  ∀ (m : SampleMap) (s : State), ∃ hd' cchar' btn', exec (.kpscan m) s = .next { s with
    hd := hd'
    cchar := cchar'
    btn := btn'
    aDown := m.getLsbD 3
    pins := { s.pins with rowN := 0b0000#4 }
    pinTrace := s.pinTrace ++
      [.row 0, .cols 0 (m.extractLsb' 0 4), .row 1, .cols 1 (m.extractLsb' 4 4),
       .row 2, .cols 2 (m.extractLsb' 8 4), .row 3, .cols 3 (m.extractLsb' 12 4), .park] }

/-- 41_keypad_decoder.md rule R121: one pass of nine events; exactly one row line is low at each sample; the rows are parked
after it; the four samples are the four nibbles of the sample map. -/
def Obligations.ScanDrivesOneRowAtATime : Prop :=
  ∀ (m : SampleMap) (s : State), ∃ t v0 v1 v2 v3, exec (.kpscan m) s = .next t ∧
    eventsSince s t = [.row 0, .cols 0 v0, .row 1, .cols 1 v1, .row 2, .cols 2 v2, .row 3, .cols 3 v3, .park] ∧
    m = v3 ++ v2 ++ v1 ++ v0 ∧
    (boardAfter ((eventsSince s t).take 1) s.pins s.chain).1.rowN = 0b1110#4 ∧
    (boardAfter ((eventsSince s t).take 3) s.pins s.chain).1.rowN = 0b1101#4 ∧
    (boardAfter ((eventsSince s t).take 5) s.pins s.chain).1.rowN = 0b1011#4 ∧
    (boardAfter ((eventsSince s t).take 7) s.pins s.chain).1.rowN = 0b0111#4 ∧
    t.pins.rowN = 0b0000#4

/-- 41_keypad_decoder.md rule R133: what a KPSCAN commits to HD: unchanged with no key active, else one more, 0 at the wrap,
0 after key 0's third stage; `keyMask` is KEY of 30_encoding.md rule R83. -/
def Obligations.ScanCommitsTheCount : Prop :=
  ∀ (m : SampleMap) (s : State), s.hd.toNat ≤ 12499 → ∃ t, exec (.kpscan m) s = .next t ∧
    t.hd.toNat =
      if m = 0#16 then s.hd.toNat
      else if s.hd.toNat + 1 = 12500 then 0
      else if m &&& keyMask (.digit 0) ≠ 0#16 ∧ 5000 ≤ s.hd.toNat + 1 then 0
      else s.hd.toNat + 1

/-- The candidate comes from the highest-numbered active digit key, at the stage the compare value selects; with no digit key
active CCHAR is unchanged (41_keypad_decoder.md sections 2 and 5). -/
def Obligations.HighestDigitKeySetsTheCandidate : Prop :=
  ∀ (m : SampleMap) (s : State), s.hd.toNat ≤ 12499 → ∃ t, exec (.kpscan m) s = .next t ∧
    (∀ (k : KeyPos) (d : Fin 10), keymap k = .digit d → m.getLsbD k.val = true →
      (∀ k' : KeyPos, k < k' → digitActive m k' = false) →
      t.cchar =
        if d = 0 then
          (if heldCount m s.hd < 2500 then 0x30#8 else if heldCount m s.hd < 5000 then 0x20#8 else 0x30#8)
        else (charList d).getD (min (heldCount m s.hd / 2500) ((charList d).length - 1)) 0x00#8) ∧
    ((∀ k : KeyPos, digitActive m k = false) → t.cchar = s.cchar)

/-- The event comes from the highest-numbered position that produces one; with none BTN is unchanged
(41_keypad_decoder.md sections 3 and 5). -/
def Obligations.HighestEventPositionSetsTheEvent : Prop :=
  ∀ (m : SampleMap) (s : State), s.hd.toNat ≤ 12499 → ∃ t, exec (.kpscan m) s = .next t ∧
    (∀ (k : KeyPos) (e : ButtonEvent), eventAt m s.aDown (heldCount m s.hd) k = some e →
      (∀ k' : KeyPos, k < k' → eventAt m s.aDown (heldCount m s.hd) k' = none) → t.btn = eventCode e) ∧
    ((∀ k : KeyPos, eventAt m s.aDown (heldCount m s.hd) k = none) → t.btn = s.btn)

/-- The ten per-key lists as the spec prints them: every letter A..Z exactly once, every digit key's first entry its own digit
(41_keypad_decoder.md section 2, the codes of log 7); and the sixteen KEY masks of the default placement, each the position whose
label it is (30_encoding.md sections 6 and 7, log 6). -/
def Obligations.KeyListsCoverTheAlphabetOnce : Prop :=
  (∀ c : CharCode, 0x41 ≤ c.toNat → c.toNat ≤ 0x5A → ((List.finRange 10).flatMap charList).count c = 1) ∧
  (∀ d : Fin 10, (charList d).head? = some (BitVec.ofNat 8 (0x30 + d.val))) ∧
  (charList 0 = [0x30#8, 0x20#8, 0x30#8] ∧ charList 1 = [0x31#8] ∧ charList 2 = [0x32#8, 0x41#8, 0x42#8, 0x43#8] ∧
    charList 3 = [0x33#8, 0x44#8, 0x45#8, 0x46#8] ∧ charList 4 = [0x34#8, 0x47#8, 0x48#8, 0x49#8] ∧
    charList 5 = [0x35#8, 0x4A#8, 0x4B#8, 0x4C#8] ∧ charList 6 = [0x36#8, 0x4D#8, 0x4E#8, 0x4F#8] ∧
    charList 7 = [0x37#8, 0x50#8, 0x51#8, 0x52#8, 0x53#8] ∧ charList 8 = [0x38#8, 0x54#8, 0x55#8, 0x56#8] ∧
    charList 9 = [0x39#8, 0x57#8, 0x58#8, 0x59#8, 0x5A#8]) ∧
  (keyMask (.digit 1) = 0x0001#16 ∧ keyMask (.digit 2) = 0x0002#16 ∧ keyMask (.digit 3) = 0x0004#16 ∧
    keyMask .a = 0x0008#16 ∧ keyMask (.digit 4) = 0x0010#16 ∧ keyMask (.digit 5) = 0x0020#16 ∧
    keyMask (.digit 6) = 0x0040#16 ∧ keyMask .b = 0x0080#16 ∧ keyMask (.digit 7) = 0x0100#16 ∧
    keyMask (.digit 8) = 0x0200#16 ∧ keyMask (.digit 9) = 0x0400#16 ∧ keyMask .c = 0x0800#16 ∧
    keyMask .star = 0x1000#16 ∧ keyMask (.digit 0) = 0x2000#16 ∧ keyMask .hash = 0x4000#16 ∧ keyMask .d = 0x8000#16) ∧
  (∀ k : KeyPos, keyMask (keymap k) = 1#16 <<< k.val)

/-- Key 0, at position 13 and so the last digit key decoded (log 6): '0', space, and '0' with the counter cleared
(41_keypad_decoder.md section 2). -/
def Obligations.KeyZeroStages : Prop :=
  ∀ (m : SampleMap) (s : State), s.hd.toNat ≤ 12499 → m.getLsbD 13 = true → ∃ t, exec (.kpscan m) s = .next t ∧
    (heldCount m s.hd < 2500 → t.cchar = 0x30#8 ∧ t.hd.toNat = heldCount m s.hd) ∧
    (2500 ≤ heldCount m s.hd → heldCount m s.hd < 5000 → t.cchar = 0x20#8 ∧ t.hd.toNat = heldCount m s.hd) ∧
    (5000 ≤ heldCount m s.hd → t.cchar = 0x30#8 ∧ t.hd.toNat = 0)

/-- 41_keypad_decoder.md rule R128: key 1, sampled active, sets the pending candidate to '1' whatever the count is; with no
other digit key active that is the candidate written, and the counter still advances. -/
def Obligations.KeyOneAlwaysYieldsOne : Prop :=
  (∀ (m : SampleMap) (aDown : Bool) (h : BitVec 14) (p : Pending) (k : KeyPos), keymap k = .digit 1 → m.getLsbD k.val = true →
    (decodeKey m aDown h p k).cand = some 0x31#8) ∧
  (∀ (m : SampleMap) (s : State), s.hd.toNat ≤ 12499 → m &&& keyMask (.digit 1) ≠ 0#16 →
    (∀ k : KeyPos, digitActive m k = true → keymap k = .digit 1) →
      ∃ t, exec (.kpscan m) s = .next t ∧ t.cchar = 0x31#8 ∧
        t.hd.toNat = if s.hd.toNat + 1 = 12500 then 0 else s.hd.toNat + 1)

/-- A KPSCAN writes the candidate whatever CURSOR holds, and leaves CCHAR alone when no digit key is active, as on a release.
The mask is that of the ten digit keys (41_keypad_decoder.md section 2; log 6). -/
def Obligations.CandidateIgnoresTheCursor : Prop :=
  ∀ (m : SampleMap) (s : State) (c : BitVec 3), ∃ t u, exec (.kpscan m) s = .next t ∧
    exec (.kpscan m) { s with cursor := c } = .next u ∧ u = { t with cursor := c } ∧
    (m &&& 0x2777#16 = 0#16 → t.cchar = s.cchar)

/-- Command keys other than A publish on every invocation that samples them, whatever the count; the highest active one wins.
Positions B 7, C 11, * 12, # 14, D 15 (41_keypad_decoder.md section 3; log 6). -/
def Obligations.CommandKeysPublish : Prop :=
  ∀ (m : SampleMap) (s : State), ∃ t, exec (.kpscan m) s = .next t ∧
    (m.getLsbD 15 = true → t.btn = 6#4) ∧
    (m.getLsbD 15 = false → m.getLsbD 14 = true → t.btn = 7#4) ∧
    (m.getLsbD 15 = false → m.getLsbD 14 = false → m.getLsbD 12 = true → t.btn = 8#4) ∧
    (m.getLsbD 15 = false → m.getLsbD 14 = false → m.getLsbD 12 = false → m.getLsbD 11 = true → t.btn = 5#4) ∧
    (m.getLsbD 15 = false → m.getLsbD 14 = false → m.getLsbD 12 = false → m.getLsbD 11 = false →
      m.getLsbD 7 = true → t.btn = 4#4)

/-- Key A, at position 3, publishes on release, short up to a count of 4000 and long beyond, and publishes nothing while it is
active or was not active before. The mask is that of the other command keys (41_keypad_decoder.md section 3; log 6). -/
def Obligations.KeyAPublishesOnRelease : Prop :=
  ∀ (m : SampleMap) (s : State), s.hd.toNat ≤ 12499 → m &&& 0xD880#16 = 0#16 → ∃ t, exec (.kpscan m) s = .next t ∧
    (s.aDown = true → m.getLsbD 3 = false → heldCount m s.hd ≤ 4000 → t.btn = 2#4) ∧
    (s.aDown = true → m.getLsbD 3 = false → 4000 < heldCount m s.hd → t.btn = 3#4) ∧
    (m.getLsbD 3 = true → t.btn = s.btn) ∧
    (s.aDown = false → m.getLsbD 3 = false → t.btn = s.btn)

/-- A KPSCAN either leaves BTN or writes one of the codes 2..8: never None, never Idle (41_keypad_decoder.md section 3). -/
def Obligations.ScanNeverWritesNoneOrIdle : Prop :=
  ∀ (m : SampleMap) (s : State), ∃ t, exec (.kpscan m) s = .next t ∧
    (t.btn = s.btn ∨ (2 ≤ t.btn.toNat ∧ t.btn.toNat ≤ 8))

/-- aDown is key A's sample in the most recent KPSCAN, whatever other operations but RESET came since
(10_state.md section 2; log 6). -/
def Obligations.ADownIsKeyAOfTheLastScan : Prop :=
  ∀ (m : SampleMap) (ops : List Instr) (s : State),
    (∀ m', Instr.kpscan m' ∉ ops) → Instr.reset ∉ ops →
      ∃ t, runOps (.kpscan m :: ops) s = .next t ∧ t.aDown = m.getLsbD 3

/-- A KPSCAN with every key up publishes key A's release if A was down, clears aDown, and leaves HD and CCHAR
(41_keypad_decoder.md section 4, the spec's own derivation). -/
def Obligations.ScanWithEveryKeyUp : Prop :=
  ∀ s : State, exec (.kpscan 0x0000#16) s = .next { s with
    btn := if s.aDown = true then (if s.hd.toNat ≤ 4000 then 2#4 else 3#4) else s.btn
    aDown := false
    pins := { s.pins with rowN := 0b0000#4 }
    pinTrace := s.pinTrace ++
      [.row 0, .cols 0 0#4, .row 1, .cols 1 0#4, .row 2, .cols 2 0#4, .row 3, .cols 3 0#4, .park] }

/-- As key 2 is held from a cleared counter the candidate is '2', 'A', 'B', 'C' in that order, changing at counts 2500, 5000 and
7500; resetting the counter between presses restarts at '2' (41_keypad_decoder.md section 6, the spec's own derivation; key 2
at position 1, log 6). -/
def Obligations.HoldingKeyTwoWalksItsList : Prop :=
  ∀ (n : Nat) (s : State), s.hd = 0#14 → 1 ≤ n → n ≤ 12499 →
    ∃ t, runOps (List.replicate n (.kpscan 0x0002#16)) s = .next t ∧ t.hd.toNat = n ∧
      t.cchar = (if n < 2500 then 0x32#8 else if n < 5000 then 0x41#8 else if n < 7500 then 0x42#8 else 0x43#8) ∧
      (∃ u, runOps [.kpscan 0x0000#16, .idleto, .kpscan 0x0002#16] t = .next u ∧ u.cchar = 0x32#8 ∧ u.hd = 1#14) ∧
      (∀ d : Word, ∃ u, runOps [.kpscan 0x0000#16, .clrHd d, .kpscan 0x0002#16] t = .next u ∧
        u.cchar = 0x32#8 ∧ u.hd = 1#14)

/-- 41_keypad_decoder.md rule R136: IDLETO clears HD and changes nothing else; a press after it restarts at the first stage. -/
def Obligations.IdleTimeoutClearsTheCount : Prop :=
  decode 0x600000#24 = .ok .idleto ∧
  (∀ s : State, exec .idleto s = .next { s with hd := 0#14 }) ∧
  (∀ s : State, ∃ t, runOps [.idleto, .kpscan (keyMask (.digit 2))] s = .next t ∧ t.hd = 1#14 ∧ t.cchar = 0x32#8)

/-! ## Host port -/

/-- 42_host_port.md rule R151: RD.VB returns the slot's code, and 0 at the reserved indexes 6 and 7. -/
def Obligations.ReadVbReturnsTheSlot : Prop :=
  ∀ (idx : Nat) (s : State), idx < 8 →
    decode (0x800000#24 + BitVec.ofNat 24 (idx * 0x10000)) = .ok (.rdVb idx) ∧
    exec (.rdVb idx) s = .next { s with
      reads := s.reads ++ [if h : idx < 6 then (s.vb[idx]).setWidth 16 else 0x0000#16] }

/-- WR.VB stores the low eight bits in its slot and changes nothing else; the reserved indexes 6 and 7 have no effect
(42_host_port.md section 2). -/
def Obligations.WriteVbStoresTheSlot : Prop :=
  ∀ (idx : Nat) (d : Word) (s : State), idx < 8 →
    decode (0xA00000#24 + BitVec.ofNat 24 (idx * 0x10000) + d.setWidth 24) = .ok (.wrVb idx d) ∧
    exec (.wrVb idx d) s = .next (if h : idx < 6 then { s with vb := s.vb.set idx (d.setWidth 8) h } else s)

/-- 42_host_port.md rule R153: RD.CURSOR returns CURSOR, 6 after RESET. -/
def Obligations.ReadCursorReturnsCursor : Prop :=
  decode 0x880000#24 = .ok .rdCursor ∧
  (∀ s : State, exec .rdCursor s = .next { s with reads := s.reads ++ [s.cursor.setWidth 16] }) ∧
  (∀ s : State, ∃ t, runOps [.reset, .rdCursor] s = .next t ∧ t.reads = s.reads ++ [0x0006#16])

/-- WR.CURSOR stores the low three bits in CURSOR, 7 as written, and changes nothing else (42_host_port.md section 3). -/
def Obligations.WriteCursorStoresThreeBits : Prop :=
  ∀ (d : Word) (s : State), decode (0xA80000#24 + d.setWidth 24) = .ok (.wrCursor d) ∧
    exec (.wrCursor d) s = .next { s with cursor := d.setWidth 3 }

/-- RD.CCHAR returns CCHAR without a side effect (42_host_port.md section 3). -/
def Obligations.ReadCcharReturnsCchar : Prop :=
  decode 0x890000#24 = .ok .rdCchar ∧
  ∀ s : State, exec .rdCchar s = .next { s with reads := s.reads ++ [s.cchar.setWidth 16] }

/-- WR.CCHAR stores the low eight bits in CCHAR and changes nothing else (42_host_port.md section 3). -/
def Obligations.WriteCcharStoresEightBits : Prop :=
  ∀ (d : Word) (s : State), decode (0xA90000#24 + d.setWidth 24) = .ok (.wrCchar d) ∧
    exec (.wrCchar d) s = .next { s with cchar := d.setWidth 8 }

/-- 42_host_port.md rule R157: RD.BTN returns the event code, 0..8 in every state that satisfies the invariant, and does not
consume it; after a press of D it returns 6. -/
def Obligations.ReadBtnDoesNotConsume : Prop :=
  decode 0x8A0000#24 = .ok .rdBtn ∧
  (∀ s : State, exec .rdBtn s = .next { s with reads := s.reads ++ [s.btn.setWidth 16] }) ∧
  (∀ s : State, StateInv s → (s.btn.setWidth 16).toNat ≤ 8) ∧
  (∀ s : State, ∃ t, runOps [.kpscan (keyMask .d), .kpscan 0x0000#16, .rdBtn] s = .next t ∧
    t.reads = s.reads ++ [0x0006#16])

/-- 42_host_port.md rule R158: ACK.BTN sets Idle whatever the data and whatever BTN held, even an event published after the
host's last read, and changes nothing else; it is idempotent. -/
def Obligations.AcknowledgeSetsIdle : Prop :=
  (∀ (d : Word) (s : State), decode (0xAA0000#24 + d.setWidth 24) = .ok (.ackBtn d) ∧
    exec (.ackBtn d) s = .next { s with btn := 1#4 }) ∧
  encode (.ackBtn 0#16) = 0xAA0000#24 ∧
  (∀ (d : Word) (s t : State), exec (.ackBtn d) s = .next t → exec (.ackBtn d) t = .next t) ∧
  (∀ (d : Word) (m : SampleMap) (s : State), ∃ t, runOps [.rdBtn, .kpscan m, .ackBtn d] s = .next t ∧ t.btn = 1#4)

/-- 42_host_port.md rule R159: RD.HD returns the count, 0..12499 in every state that satisfies the invariant, and 3 after RESET
and three invocations of key 2. -/
def Obligations.ReadHdReturnsTheCount : Prop :=
  decode 0x8B0000#24 = .ok .rdHd ∧
  (∀ s : State, exec .rdHd s = .next { s with reads := s.reads ++ [s.hd.setWidth 16] }) ∧
  (∀ s : State, StateInv s → (s.hd.setWidth 16).toNat ≤ 12499) ∧
  (∀ s : State, ∃ t, runOps ([.reset] ++ List.replicate 3 (.kpscan (keyMask (.digit 2))) ++ [.rdHd]) s = .next t ∧
    t.reads = s.reads ++ [0x0003#16])

/-- 42_host_port.md rule R160: CLR.HD clears HD whatever the data, leaves aDown and everything else, and is idempotent; a release
of key A after it classifies by the count since the clear (short up to 4000). -/
def Obligations.ClearHdClearsOnlyTheCount : Prop :=
  (∀ (d : Word) (s : State), decode (0xAB0000#24 + d.setWidth 24) = .ok (.clrHd d) ∧
    exec (.clrHd d) s = .next { s with hd := 0#14 }) ∧
  encode (.clrHd 0#16) = 0xAB0000#24 ∧
  (∀ (d : Word) (s t : State), exec (.clrHd d) s = .next t → exec (.clrHd d) t = .next t) ∧
  (∀ (d : Word) (n : Nat) (s : State), s.aDown = true → n ≤ 12499 →
    ∃ t, runOps ([.clrHd d] ++ List.replicate n (.kpscan (keyMask .a)) ++ [.kpscan 0x0000#16]) s = .next t ∧
      t.btn = if n ≤ 4000 then 2#4 else 3#4)

/-- 42_host_port.md rule R161: a read of a reserved address returns 0 and changes nothing. -/
def Obligations.ReadReservedReturnsZero : Prop :=
  ∀ (lo : Nat) (s : State), lo < 4 →
    decode (0x8C0000#24 + BitVec.ofNat 24 (lo * 0x10000)) = .ok (.rdRsvd lo) ∧
    exec (.rdRsvd lo) s = .next { s with reads := s.reads ++ [0x0000#16] }

/-- 42_host_port.md rule R162: a write to a reserved address changes nothing. -/
def Obligations.WriteReservedChangesNothing : Prop :=
  ∀ (lo : Nat) (d : Word) (s : State), lo < 4 →
    decode (0xAC0000#24 + BitVec.ofNat 24 (lo * 0x10000) + d.setWidth 24) = .ok (.wrRsvd lo d) ∧
    exec (.wrRsvd lo d) s = .next s

/-- 42_host_port.md rule R163: NOP is the identity. -/
def Obligations.NopIsTheIdentity : Prop :=
  decode 0x000000#24 = .ok .nop ∧ ∀ s : State, exec .nop s = .next s

/-- 20_memory.md rule R55: a read has no side effect, may be repeated, and returns the current value each time; writes to VB,
CURSOR and CCHAR store data; a write to BTN sets Idle and a write to HD sets 0 whatever the data; all writes are idempotent. -/
def Obligations.ReadsAreRepeatableAndWritesIdempotent : Prop :=
  (∀ (i : Instr) (s : State), isHostRead i = true →
    ∃ w, exec i s = .next { s with reads := s.reads ++ [w] } ∧
      runOps [i, i] s = .next { s with reads := s.reads ++ [w, w] }) ∧
  (∀ (idx : Nat) (h : idx < 6) (s : State),
    exec (.rdVb idx) s = .next { s with reads := s.reads ++ [(s.vb[idx]).setWidth 16] }) ∧
  (∀ s : State, exec .rdCursor s = .next { s with reads := s.reads ++ [s.cursor.setWidth 16] } ∧
    exec .rdCchar s = .next { s with reads := s.reads ++ [s.cchar.setWidth 16] } ∧
    exec .rdBtn s = .next { s with reads := s.reads ++ [s.btn.setWidth 16] } ∧
    exec .rdHd s = .next { s with reads := s.reads ++ [s.hd.setWidth 16] }) ∧
  (∀ (i : Instr) (s : State), isHostWrite i = true → ∃ t, exec i s = .next t ∧ exec i t = .next t) ∧
  (∀ (idx : Nat) (h : idx < 6) (d : Word) (s : State),
    exec (.wrVb idx d) s = .next { s with vb := s.vb.set idx (d.setWidth 8) h }) ∧
  (∀ (d : Word) (s : State), exec (.wrCursor d) s = .next { s with cursor := d.setWidth 3 } ∧
    exec (.wrCchar d) s = .next { s with cchar := d.setWidth 8 } ∧ exec (.ackBtn d) s = .next { s with btn := 1#4 } ∧
    exec (.clrHd d) s = .next { s with hd := 0#14 })

/-- Who writes which register (10_state.md sections 1 and 2, 42_host_port.md section 7): an operation that is not one of a
register's writers leaves it as it was. VB, CURSOR: the host's write and RESET. CCHAR: KPSCAN, the host's write and RESET. BTN:
KPSCAN with a code 2..8, ACK.BTN with Idle and RESET with None. HD: KPSCAN, and IDLETO, CLR.HD and RESET with 0. activeSlot and
SR: TICK and RESET. aDown: KPSCAN and RESET. -/
def Obligations.EachRegisterHasItsWriters : Prop :=
  ∀ (i : Instr) (s t : State), exec i s = .next t →
    (t.vb = s.vb ∨ i = .reset ∨ ∃ idx d, i = .wrVb idx d) ∧
    (t.cursor = s.cursor ∨ i = .reset ∨ ∃ d, i = .wrCursor d) ∧
    (t.cchar = s.cchar ∨ i = .reset ∨ (∃ d, i = .wrCchar d) ∨ ∃ m, i = .kpscan m) ∧
    (t.btn = s.btn ∨ (i = .reset ∧ t.btn = 0#4) ∨ (∃ d, i = .ackBtn d ∧ t.btn = 1#4) ∨
      ∃ m, i = .kpscan m ∧ 2 ≤ t.btn.toNat ∧ t.btn.toNat ≤ 8) ∧
    (t.hd = s.hd ∨ (i = .reset ∧ t.hd = 0#14) ∨ (i = .idleto ∧ t.hd = 0#14) ∨ (∃ d, i = .clrHd d ∧ t.hd = 0#14) ∨
      ∃ m, i = .kpscan m) ∧
    (t.activeSlot = s.activeSlot ∨ i = .reset ∨ i = .tick) ∧
    (t.sr = s.sr ∨ i = .reset ∨ i = .tick) ∧
    (t.aDown = s.aDown ∨ i = .reset ∨ ∃ m, i = .kpscan m)

/-- BTN is one deep: an event published between the host's read and its acknowledge is lost, in the other order it survives, and
of two events published before a read the first is lost (70_reset_and_hazards.md section 3). D is at position 15 and B at
position 7 (log 6). -/
def Obligations.AnEventBetweenReadAndAckIsLost : Prop :=
  ∀ (d : Word) (m : SampleMap) (s : State),
    (∃ t, runOps [.rdBtn, .kpscan m, .ackBtn d] s = .next t ∧ t.reads = s.reads ++ [s.btn.setWidth 16] ∧ t.btn = 1#4) ∧
    (∃ t, runOps [.rdBtn, .ackBtn d, .kpscan 0x8000#16] s = .next t ∧ t.reads = s.reads ++ [s.btn.setWidth 16] ∧
      t.btn = 6#4) ∧
    (∃ t, runOps [.kpscan 0x8000#16, .kpscan 0x0080#16] s = .next t ∧ t.btn = 4#4)

/-! ## Reset -/

/-- 70_reset_and_hazards.md rule R190: RESET gives every register and every output pin its reset value, appends PinsReset, and
leaves XS and XL; the worked example's three reads. -/
def Obligations.ResetSetsEverythingButTheChain : Prop :=
  decode 0xE00000#24 = .ok .reset ∧
  (∀ s : State, exec .reset s = .next { s with
    vb := #v[0x20#8, 0x20#8, 0x20#8, 0x20#8, 0x20#8, 0x20#8]
    cursor := 6#3
    cchar := 0x5F#8
    btn := 0#4
    hd := 0#14
    activeSlot := 0
    aDown := false
    sr := 0x0000#16
    pins := { digN := 0b111111#6, serData := false, serSck := false, serLck := false, rowN := 0b0000#4 }
    pinTrace := s.pinTrace ++ [.pinsReset] }) ∧
  (∀ s : State, ∃ t, runOps [.reset, .rdCursor, .rdCchar, .rdBtn] s = .next t ∧
    t.reads = s.reads ++ [0x0006#16, 0x005F#16, 0x0000#16])

/-- The state after reset has the values of the reset table (10_state.md section 7). XS, XL, the pending events and the words
read are the model's (logs 1, 4 and 11) and not stated. -/
def Obligations.ResetStateHasTheTabledValues : Prop :=
  State.reset.vb = #v[0x20#8, 0x20#8, 0x20#8, 0x20#8, 0x20#8, 0x20#8] ∧ State.reset.cursor = 6#3 ∧
  State.reset.cchar = 0x5F#8 ∧ State.reset.btn = 0#4 ∧ State.reset.hd = 0#14 ∧ State.reset.activeSlot.val = 0 ∧
  State.reset.aDown = false ∧ State.reset.sr = 0x0000#16 ∧ State.reset.pins.digN = 0b111111#6 ∧
  State.reset.pins.serData = false ∧ State.reset.pins.serSck = false ∧ State.reset.pins.serLck = false ∧
  State.reset.pins.rowN = 0b0000#4 ∧ State.reset.pinTrace = [.pinsReset]

/-- No digit is enabled between RESET and the DigOn that ends the first TICK, and by then the chain holds that TICK's pattern
whatever it held at power-on (70_reset_and_hazards.md section 1, the spec's own derivation). -/
def Obligations.UnknownChainIsNeverShown : Prop :=
  ∀ (ops : List Instr) (s : State), Instr.tick ∉ ops →
    ∃ t u, runOps (.reset :: ops) s = .next t ∧ t.pins.digN = 0b111111#6 ∧
      exec .tick t = .next u ∧ u.chain.xs = u.sr ∧ u.chain.xl = u.sr ∧
      ∀ n, n ≤ 34 → (boardAfter ((eventsSince t u).take n) t.pins t.chain).1.digN = 0b111111#6

/-- The first refresh cycle after RESET enables the digits 1, 2, 3, 4, 5, 0 and every frame is sixteen zeros
(70_reset_and_hazards.md section 1, the spec's own derivation). -/
def Obligations.FirstRefreshAfterResetIsDark : Prop :=
  ∀ s : State, ∃ t, runOps (.reset :: List.replicate 6 .tick) s = .next t ∧
    eventsSince s t = .pinsReset ::
      ([(0, 1), (1, 2), (2, 3), (3, 4), (4, 5), (5, 0)] : List (Slot × Slot)).flatMap (fun q =>
        [.digOff q.1] ++ (List.replicate 16 [PinEvent.data false, .shift]).flatten ++ [.latch, .digOn q.2]) ∧
    t.chain.xl = 0x0000#16 ∧ t.pins.digN = 0b111110#6
end

