-- ==== Sys2Proof/Laws/Decode.lean ====
section
/-! SUPPORT. Laws of the word format: the fields of a built word, the word built from its fields, class codes and indexes. -/

namespace Sys2Proof

/-- The value of a built word (30_encoding.md rule R71). -/
theorem formatW_toNat (c : BitVec 3) (a : RegAddr) (d : Word) :
    (formatW c a d).toNat = c.toNat * 2 ^ 21 + a.toNat * 2 ^ 16 + d.toNat := by
  have := c.isLt; have := a.isLt; have := d.isLt
  have h : (formatW c a d).toNat = (c ++ 0#1 ++ a ++ d).toNat := rfl
  rw [h]
  simp only [BitVec.toNat_append]
  rw [← Nat.shiftLeft_add_eq_or_of_lt (by omega), ← Nat.shiftLeft_add_eq_or_of_lt (by omega),
    ← Nat.shiftLeft_add_eq_or_of_lt (by decide)]
  simp only [Nat.shiftLeft_eq, BitVec.toNat_ofNat]
  omega

theorem clsField_toNat (w : Stimulus) : (clsField w).toNat = w.toNat / 2 ^ 21 := by
  have := w.isLt
  simp only [clsField, BitVec.extractLsb'_toNat, Nat.shiftRight_eq_div_pow]
  omega

theorem zField_toNat (w : Stimulus) : (zField w).toNat = w.toNat / 2 ^ 20 % 2 := by
  simp [zField, BitVec.extractLsb'_toNat, Nat.shiftRight_eq_div_pow]

theorem addrField_toNat (w : Stimulus) : (addrField w).toNat = w.toNat / 2 ^ 16 % 16 := by
  simp [addrField, BitVec.extractLsb'_toNat, Nat.shiftRight_eq_div_pow]

theorem dataField_toNat (w : Stimulus) : (dataField w).toNat = w.toNat % 2 ^ 16 := by
  simp [dataField, BitVec.extractLsb'_toNat]

@[simp] theorem clsField_formatW (c : BitVec 3) (a : RegAddr) (d : Word) : clsField (formatW c a d) = c := by
  apply BitVec.eq_of_toNat_eq
  have := a.isLt; have := d.isLt
  rw [clsField_toNat, formatW_toNat]; omega

@[simp] theorem zField_formatW (c : BitVec 3) (a : RegAddr) (d : Word) : zField (formatW c a d) = 0#1 := by
  apply BitVec.eq_of_toNat_eq
  have := a.isLt; have := d.isLt
  rw [zField_toNat, formatW_toNat]; simp; omega

@[simp] theorem addrField_formatW (c : BitVec 3) (a : RegAddr) (d : Word) : addrField (formatW c a d) = a := by
  apply BitVec.eq_of_toNat_eq
  have := a.isLt; have := d.isLt
  rw [addrField_toNat, formatW_toNat]; omega

@[simp] theorem dataField_formatW (c : BitVec 3) (a : RegAddr) (d : Word) : dataField (formatW c a d) = d := by
  apply BitVec.eq_of_toNat_eq
  have := d.isLt
  rw [dataField_toNat, formatW_toNat]; omega

/-- A word whose z bit is 0 is the format of its fields. -/
theorem formatW_fields {w : Stimulus} (hz : zField w = 0#1) :
    formatW (clsField w) (addrField w) (dataField w) = w := by
  apply BitVec.eq_of_toNat_eq
  have hz' : (zField w).toNat = 0 := by rw [hz]; rfl
  have := w.isLt
  rw [zField_toNat] at hz'
  rw [formatW_toNat, clsField_toNat, addrField_toNat, dataField_toNat]
  omega

@[simp] theorem classOf_classCode (c : OpClass) : classOf (classCode c) = some c := by
  cases c <;> decide

/-- A code that names a class is that class's code. -/
theorem classCode_of_classOf {b : BitVec 3} {c : OpClass} (h : classOf b = some c) : classCode c = b := by
  revert c; revert b; decide

/-- Only 110 names no class. -/
theorem classOf_eq_none_iff (b : BitVec 3) : classOf b = none ↔ b = 0b110#3 := by
  revert b; decide

theorem vbIndex_lt (a : RegAddr) : vbIndex a < 8 := (a.extractLsb' 0 3).isLt

theorem rsvdIndex_lt (a : RegAddr) : rsvdIndex a < 4 := (a.extractLsb' 0 2).isLt

theorem vbIndex_vbAddr {idx : Nat} (h : idx < 8) : vbIndex (vbAddr idx) = idx := by
  interval_cases idx <;> decide

theorem rsvdIndex_rsvdAddr {lo : Nat} (h : lo < 4) : rsvdIndex (rsvdAddr lo) = lo := by
  interval_cases lo <;> decide

/-- The address of a window index below 8 is the index. -/
theorem vbAddr_toNat {idx : Nat} (h : idx < 8) : (vbAddr idx).toNat = idx := by
  interval_cases idx <;> decide

/-- The address of a reserved index below 4 is 0xC plus the index. -/
theorem rsvdAddr_toNat {lo : Nat} (h : lo < 4) : (rsvdAddr lo).toNat = 12 + lo := by
  interval_cases lo <;> decide

theorem readOp_vbAddr {idx : Nat} (h : idx < 8) : readOp (vbAddr idx) = .rdVb idx := by
  interval_cases idx <;> decide

theorem readOp_rsvdAddr {lo : Nat} (h : lo < 4) : readOp (rsvdAddr lo) = .rdRsvd lo := by
  interval_cases lo <;> decide

theorem writeOp_vbAddr {idx : Nat} (h : idx < 8) (d : Word) : writeOp (vbAddr idx) d = .wrVb idx d := by
  interval_cases idx <;> rfl

theorem writeOp_rsvdAddr {lo : Nat} (h : lo < 4) (d : Word) : writeOp (rsvdAddr lo) d = .wrRsvd lo d := by
  interval_cases lo <;> rfl

/-- The decoder on a word given by its fields. -/
theorem decode_formatW (c : OpClass) (a : RegAddr) (d : Word) :
    decode (formatW (classCode c) a d) = decodeClass c a d := by
  simp [decode]

/-- Everything an accepted word can be: its class is assigned, its z bit is 0, and its class accepts its address and data. -/
theorem decode_ok_cases {w : Stimulus} {i : Instr} (h : decode w = .ok i) :
    ∃ c, classOf (clsField w) = some c ∧ zField w = 0#1 ∧ decodeClass c (addrField w) (dataField w) = .ok i := by
  unfold decode at h
  cases hc : classOf (clsField w) with
  | none => rw [hc] at h; cases h
  | some c =>
    rw [hc] at h
    by_cases hz : zField w = 0#1
    · exact ⟨c, rfl, hz, by rw [← h]; exact (if_neg (not_not.mpr hz)).symm⟩
    · have h' : Except.error InvalidWord.zBitSet = Except.ok (ε := InvalidWord) i := by
        rw [← h]; exact (if_pos hz).symm
      cases h'

end Sys2Proof
end

