-- ==== Sys2Proof/Laws/State.lean ====
section
/-! SUPPORT. What each update of the state does to each field, by rfl, for the simplifier: no later proof unfolds an update. -/

namespace Sys2Proof.Machine

/-! ### `trace` -/

@[simp] theorem trace_vb (e : PinEvent) (s : State) : (trace e s).vb = s.vb := rfl
@[simp] theorem trace_cursor (e : PinEvent) (s : State) : (trace e s).cursor = s.cursor := rfl
@[simp] theorem trace_cchar (e : PinEvent) (s : State) : (trace e s).cchar = s.cchar := rfl
@[simp] theorem trace_btn (e : PinEvent) (s : State) : (trace e s).btn = s.btn := rfl
@[simp] theorem trace_hd (e : PinEvent) (s : State) : (trace e s).hd = s.hd := rfl
@[simp] theorem trace_activeSlot (e : PinEvent) (s : State) : (trace e s).activeSlot = s.activeSlot := rfl
@[simp] theorem trace_aDown (e : PinEvent) (s : State) : (trace e s).aDown = s.aDown := rfl
@[simp] theorem trace_sr (e : PinEvent) (s : State) : (trace e s).sr = s.sr := rfl
@[simp] theorem trace_pins (e : PinEvent) (s : State) : (trace e s).pins = pinsAfter e s.pins := rfl
@[simp] theorem trace_chain (e : PinEvent) (s : State) : (trace e s).chain = chainAfter e s.pins.serData s.chain := rfl
@[simp] theorem trace_pinTrace (e : PinEvent) (s : State) : (trace e s).pinTrace = s.pinTrace ++ [e] := rfl
@[simp] theorem trace_reads (e : PinEvent) (s : State) : (trace e s).reads = s.reads := rfl
@[simp] theorem trace_stimuli (e : PinEvent) (s : State) : (trace e s).stimuli = s.stimuli := rfl

/-! ### `enableDigit` -/

@[simp] theorem enableDigit_vb (i : Slot) (s : State) : (enableDigit i s).vb = s.vb := rfl
@[simp] theorem enableDigit_cursor (i : Slot) (s : State) : (enableDigit i s).cursor = s.cursor := rfl
@[simp] theorem enableDigit_cchar (i : Slot) (s : State) : (enableDigit i s).cchar = s.cchar := rfl
@[simp] theorem enableDigit_btn (i : Slot) (s : State) : (enableDigit i s).btn = s.btn := rfl
@[simp] theorem enableDigit_hd (i : Slot) (s : State) : (enableDigit i s).hd = s.hd := rfl
@[simp] theorem enableDigit_activeSlot (i : Slot) (s : State) : (enableDigit i s).activeSlot = s.activeSlot := rfl
@[simp] theorem enableDigit_aDown (i : Slot) (s : State) : (enableDigit i s).aDown = s.aDown := rfl
@[simp] theorem enableDigit_sr (i : Slot) (s : State) : (enableDigit i s).sr = s.sr := rfl
@[simp] theorem enableDigit_pins (i : Slot) (s : State) : (enableDigit i s).pins = pinsAfter (.digOn i) s.pins := rfl
@[simp] theorem enableDigit_chain (i : Slot) (s : State) : (enableDigit i s).chain = s.chain := rfl
@[simp] theorem enableDigit_pinTrace (i : Slot) (s : State) : (enableDigit i s).pinTrace = s.pinTrace ++ [.digOn i] := rfl
@[simp] theorem enableDigit_reads (i : Slot) (s : State) : (enableDigit i s).reads = s.reads := rfl
@[simp] theorem enableDigit_stimuli (i : Slot) (s : State) : (enableDigit i s).stimuli = s.stimuli := rfl

/-! ### `disableDigit` -/

@[simp] theorem disableDigit_vb (i : Slot) (s : State) : (disableDigit i s).vb = s.vb := rfl
@[simp] theorem disableDigit_cursor (i : Slot) (s : State) : (disableDigit i s).cursor = s.cursor := rfl
@[simp] theorem disableDigit_cchar (i : Slot) (s : State) : (disableDigit i s).cchar = s.cchar := rfl
@[simp] theorem disableDigit_btn (i : Slot) (s : State) : (disableDigit i s).btn = s.btn := rfl
@[simp] theorem disableDigit_hd (i : Slot) (s : State) : (disableDigit i s).hd = s.hd := rfl
@[simp] theorem disableDigit_activeSlot (i : Slot) (s : State) : (disableDigit i s).activeSlot = s.activeSlot := rfl
@[simp] theorem disableDigit_aDown (i : Slot) (s : State) : (disableDigit i s).aDown = s.aDown := rfl
@[simp] theorem disableDigit_sr (i : Slot) (s : State) : (disableDigit i s).sr = s.sr := rfl
@[simp] theorem disableDigit_pins (i : Slot) (s : State) : (disableDigit i s).pins = pinsAfter (.digOff i) s.pins := rfl
@[simp] theorem disableDigit_chain (i : Slot) (s : State) : (disableDigit i s).chain = s.chain := rfl
@[simp] theorem disableDigit_pinTrace (i : Slot) (s : State) : (disableDigit i s).pinTrace = s.pinTrace ++ [.digOff i] := rfl
@[simp] theorem disableDigit_reads (i : Slot) (s : State) : (disableDigit i s).reads = s.reads := rfl
@[simp] theorem disableDigit_stimuli (i : Slot) (s : State) : (disableDigit i s).stimuli = s.stimuli := rfl

/-! ### `pushStimulus` -/

@[simp] theorem pushStimulus_vb (w : Stimulus) (s : State) : (pushStimulus w s).vb = s.vb := rfl
@[simp] theorem pushStimulus_cursor (w : Stimulus) (s : State) : (pushStimulus w s).cursor = s.cursor := rfl
@[simp] theorem pushStimulus_cchar (w : Stimulus) (s : State) : (pushStimulus w s).cchar = s.cchar := rfl
@[simp] theorem pushStimulus_btn (w : Stimulus) (s : State) : (pushStimulus w s).btn = s.btn := rfl
@[simp] theorem pushStimulus_hd (w : Stimulus) (s : State) : (pushStimulus w s).hd = s.hd := rfl
@[simp] theorem pushStimulus_activeSlot (w : Stimulus) (s : State) : (pushStimulus w s).activeSlot = s.activeSlot := rfl
@[simp] theorem pushStimulus_aDown (w : Stimulus) (s : State) : (pushStimulus w s).aDown = s.aDown := rfl
@[simp] theorem pushStimulus_sr (w : Stimulus) (s : State) : (pushStimulus w s).sr = s.sr := rfl
@[simp] theorem pushStimulus_pins (w : Stimulus) (s : State) : (pushStimulus w s).pins = s.pins := rfl
@[simp] theorem pushStimulus_chain (w : Stimulus) (s : State) : (pushStimulus w s).chain = s.chain := rfl
@[simp] theorem pushStimulus_pinTrace (w : Stimulus) (s : State) : (pushStimulus w s).pinTrace = s.pinTrace := rfl
@[simp] theorem pushStimulus_reads (w : Stimulus) (s : State) : (pushStimulus w s).reads = s.reads := rfl
@[simp] theorem pushStimulus_stimuli (w : Stimulus) (s : State) : (pushStimulus w s).stimuli = w :: s.stimuli := rfl

/-! ### `hostRead` -/

@[simp] theorem hostRead_vb (a : RegAddr) (s : State) : (hostRead a s).vb = s.vb := rfl
@[simp] theorem hostRead_cursor (a : RegAddr) (s : State) : (hostRead a s).cursor = s.cursor := rfl
@[simp] theorem hostRead_cchar (a : RegAddr) (s : State) : (hostRead a s).cchar = s.cchar := rfl
@[simp] theorem hostRead_btn (a : RegAddr) (s : State) : (hostRead a s).btn = s.btn := rfl
@[simp] theorem hostRead_hd (a : RegAddr) (s : State) : (hostRead a s).hd = s.hd := rfl
@[simp] theorem hostRead_activeSlot (a : RegAddr) (s : State) : (hostRead a s).activeSlot = s.activeSlot := rfl
@[simp] theorem hostRead_aDown (a : RegAddr) (s : State) : (hostRead a s).aDown = s.aDown := rfl
@[simp] theorem hostRead_sr (a : RegAddr) (s : State) : (hostRead a s).sr = s.sr := rfl
@[simp] theorem hostRead_pins (a : RegAddr) (s : State) : (hostRead a s).pins = s.pins := rfl
@[simp] theorem hostRead_chain (a : RegAddr) (s : State) : (hostRead a s).chain = s.chain := rfl
@[simp] theorem hostRead_pinTrace (a : RegAddr) (s : State) : (hostRead a s).pinTrace = s.pinTrace := rfl
@[simp] theorem hostRead_reads (a : RegAddr) (s : State) : (hostRead a s).reads = s.reads ++ [regRead a s] := rfl
@[simp] theorem hostRead_stimuli (a : RegAddr) (s : State) : (hostRead a s).stimuli = s.stimuli := rfl

/-! ### `resetRegisters` -/

@[simp] theorem resetRegisters_vb (s : State) : (resetRegisters s).vb = Vector.replicate 6 blank := rfl
@[simp] theorem resetRegisters_cursor (s : State) : (resetRegisters s).cursor = cursorNone := rfl
@[simp] theorem resetRegisters_cchar (s : State) : (resetRegisters s).cchar = placeholder := rfl
@[simp] theorem resetRegisters_btn (s : State) : (resetRegisters s).btn = 0#4 := rfl
@[simp] theorem resetRegisters_hd (s : State) : (resetRegisters s).hd = 0#14 := rfl
@[simp] theorem resetRegisters_activeSlot (s : State) : (resetRegisters s).activeSlot = 0 := rfl
@[simp] theorem resetRegisters_aDown (s : State) : (resetRegisters s).aDown = false := rfl
@[simp] theorem resetRegisters_sr (s : State) : (resetRegisters s).sr = 0x0000#16 := rfl
@[simp] theorem resetRegisters_pins (s : State) : (resetRegisters s).pins = s.pins := rfl
@[simp] theorem resetRegisters_chain (s : State) : (resetRegisters s).chain = s.chain := rfl
@[simp] theorem resetRegisters_pinTrace (s : State) : (resetRegisters s).pinTrace = s.pinTrace := rfl
@[simp] theorem resetRegisters_reads (s : State) : (resetRegisters s).reads = s.reads := rfl
@[simp] theorem resetRegisters_stimuli (s : State) : (resetRegisters s).stimuli = s.stimuli := rfl

/-! ### Pin events on the output pins -/

@[simp] theorem pinsAfter_digOff_digN (i : Slot) (p : Pins) : (pinsAfter (.digOff i) p).digN = p.digN ||| digitMask i := rfl
@[simp] theorem pinsAfter_digOff_serData (i : Slot) (p : Pins) : (pinsAfter (.digOff i) p).serData = p.serData := rfl
@[simp] theorem pinsAfter_digOff_serSck (i : Slot) (p : Pins) : (pinsAfter (.digOff i) p).serSck = p.serSck := rfl
@[simp] theorem pinsAfter_digOff_serLck (i : Slot) (p : Pins) : (pinsAfter (.digOff i) p).serLck = p.serLck := rfl
@[simp] theorem pinsAfter_digOff_rowN (i : Slot) (p : Pins) : (pinsAfter (.digOff i) p).rowN = p.rowN := rfl
@[simp] theorem pinsAfter_digOn_digN (i : Slot) (p : Pins) : (pinsAfter (.digOn i) p).digN = p.digN &&& ~~~(digitMask i) := rfl
@[simp] theorem pinsAfter_digOn_serData (i : Slot) (p : Pins) : (pinsAfter (.digOn i) p).serData = p.serData := rfl
@[simp] theorem pinsAfter_digOn_serSck (i : Slot) (p : Pins) : (pinsAfter (.digOn i) p).serSck = p.serSck := rfl
@[simp] theorem pinsAfter_digOn_serLck (i : Slot) (p : Pins) : (pinsAfter (.digOn i) p).serLck = p.serLck := rfl
@[simp] theorem pinsAfter_digOn_rowN (i : Slot) (p : Pins) : (pinsAfter (.digOn i) p).rowN = p.rowN := rfl
@[simp] theorem pinsAfter_data_digN (b : Bool) (p : Pins) : (pinsAfter (.data b) p).digN = p.digN := rfl
@[simp] theorem pinsAfter_data_serData (b : Bool) (p : Pins) : (pinsAfter (.data b) p).serData = b := rfl
@[simp] theorem pinsAfter_data_serSck (b : Bool) (p : Pins) : (pinsAfter (.data b) p).serSck = p.serSck := rfl
@[simp] theorem pinsAfter_data_serLck (b : Bool) (p : Pins) : (pinsAfter (.data b) p).serLck = p.serLck := rfl
@[simp] theorem pinsAfter_data_rowN (b : Bool) (p : Pins) : (pinsAfter (.data b) p).rowN = p.rowN := rfl
@[simp] theorem pinsAfter_shift_digN (p : Pins) : (pinsAfter (.shift) p).digN = p.digN := rfl
@[simp] theorem pinsAfter_shift_serData (p : Pins) : (pinsAfter (.shift) p).serData = p.serData := rfl
@[simp] theorem pinsAfter_shift_serSck (p : Pins) : (pinsAfter (.shift) p).serSck = false := rfl
@[simp] theorem pinsAfter_shift_serLck (p : Pins) : (pinsAfter (.shift) p).serLck = p.serLck := rfl
@[simp] theorem pinsAfter_shift_rowN (p : Pins) : (pinsAfter (.shift) p).rowN = p.rowN := rfl
@[simp] theorem pinsAfter_latch_digN (p : Pins) : (pinsAfter (.latch) p).digN = p.digN := rfl
@[simp] theorem pinsAfter_latch_serData (p : Pins) : (pinsAfter (.latch) p).serData = p.serData := rfl
@[simp] theorem pinsAfter_latch_serSck (p : Pins) : (pinsAfter (.latch) p).serSck = p.serSck := rfl
@[simp] theorem pinsAfter_latch_serLck (p : Pins) : (pinsAfter (.latch) p).serLck = false := rfl
@[simp] theorem pinsAfter_latch_rowN (p : Pins) : (pinsAfter (.latch) p).rowN = p.rowN := rfl
@[simp] theorem pinsAfter_row_digN (r : Fin 4) (p : Pins) : (pinsAfter (.row r) p).digN = p.digN := rfl
@[simp] theorem pinsAfter_row_serData (r : Fin 4) (p : Pins) : (pinsAfter (.row r) p).serData = p.serData := rfl
@[simp] theorem pinsAfter_row_serSck (r : Fin 4) (p : Pins) : (pinsAfter (.row r) p).serSck = p.serSck := rfl
@[simp] theorem pinsAfter_row_serLck (r : Fin 4) (p : Pins) : (pinsAfter (.row r) p).serLck = p.serLck := rfl
@[simp] theorem pinsAfter_row_rowN (r : Fin 4) (p : Pins) : (pinsAfter (.row r) p).rowN = ~~~(rowMask r) := rfl
@[simp] theorem pinsAfter_cols_digN (r : Fin 4) (v : BitVec 4) (p : Pins) : (pinsAfter (.cols r v) p).digN = p.digN := rfl
@[simp] theorem pinsAfter_cols_serData (r : Fin 4) (v : BitVec 4) (p : Pins) : (pinsAfter (.cols r v) p).serData = p.serData := rfl
@[simp] theorem pinsAfter_cols_serSck (r : Fin 4) (v : BitVec 4) (p : Pins) : (pinsAfter (.cols r v) p).serSck = p.serSck := rfl
@[simp] theorem pinsAfter_cols_serLck (r : Fin 4) (v : BitVec 4) (p : Pins) : (pinsAfter (.cols r v) p).serLck = p.serLck := rfl
@[simp] theorem pinsAfter_cols_rowN (r : Fin 4) (v : BitVec 4) (p : Pins) : (pinsAfter (.cols r v) p).rowN = p.rowN := rfl
@[simp] theorem pinsAfter_park_digN (p : Pins) : (pinsAfter (.park) p).digN = p.digN := rfl
@[simp] theorem pinsAfter_park_serData (p : Pins) : (pinsAfter (.park) p).serData = p.serData := rfl
@[simp] theorem pinsAfter_park_serSck (p : Pins) : (pinsAfter (.park) p).serSck = p.serSck := rfl
@[simp] theorem pinsAfter_park_serLck (p : Pins) : (pinsAfter (.park) p).serLck = p.serLck := rfl
@[simp] theorem pinsAfter_park_rowN (p : Pins) : (pinsAfter (.park) p).rowN = 0b0000#4 := rfl
@[simp] theorem pinsAfter_pinsReset (p : Pins) : pinsAfter .pinsReset p = resetPins := rfl

/-! ### Pin events on the display chain -/

@[simp] theorem chainAfter_digOff (i : Slot) (d : Bool) (c : Chain) : chainAfter (.digOff i) d c = c := rfl
@[simp] theorem chainAfter_digOn (i : Slot) (d : Bool) (c : Chain) : chainAfter (.digOn i) d c = c := rfl
@[simp] theorem chainAfter_data (b : Bool) (d : Bool) (c : Chain) : chainAfter (.data b) d c = c := rfl
@[simp] theorem chainAfter_shift (d : Bool) (c : Chain) : chainAfter .shift d c = { c with xs := shiftIn c.xs d } := rfl
@[simp] theorem chainAfter_latch (d : Bool) (c : Chain) : chainAfter .latch d c = { c with xl := c.xs } := rfl
@[simp] theorem chainAfter_row (r : Fin 4) (d : Bool) (c : Chain) : chainAfter (.row r) d c = c := rfl
@[simp] theorem chainAfter_cols (r : Fin 4) (v : BitVec 4) (d : Bool) (c : Chain) : chainAfter (.cols r v) d c = c := rfl
@[simp] theorem chainAfter_park (d : Bool) (c : Chain) : chainAfter (.park) d c = c := rfl
@[simp] theorem chainAfter_pinsReset (d : Bool) (c : Chain) : chainAfter .pinsReset d c = c := rfl

/-! ### `arrive` -/

@[simp] theorem arrive_vb (ws : List Stimulus) (s : State) : (arrive ws s).vb = s.vb := rfl
@[simp] theorem arrive_cursor (ws : List Stimulus) (s : State) : (arrive ws s).cursor = s.cursor := rfl
@[simp] theorem arrive_cchar (ws : List Stimulus) (s : State) : (arrive ws s).cchar = s.cchar := rfl
@[simp] theorem arrive_btn (ws : List Stimulus) (s : State) : (arrive ws s).btn = s.btn := rfl
@[simp] theorem arrive_hd (ws : List Stimulus) (s : State) : (arrive ws s).hd = s.hd := rfl
@[simp] theorem arrive_activeSlot (ws : List Stimulus) (s : State) : (arrive ws s).activeSlot = s.activeSlot := rfl
@[simp] theorem arrive_aDown (ws : List Stimulus) (s : State) : (arrive ws s).aDown = s.aDown := rfl
@[simp] theorem arrive_sr (ws : List Stimulus) (s : State) : (arrive ws s).sr = s.sr := rfl
@[simp] theorem arrive_pins (ws : List Stimulus) (s : State) : (arrive ws s).pins = s.pins := rfl
@[simp] theorem arrive_chain (ws : List Stimulus) (s : State) : (arrive ws s).chain = s.chain := rfl
@[simp] theorem arrive_pinTrace (ws : List Stimulus) (s : State) : (arrive ws s).pinTrace = s.pinTrace := rfl
@[simp] theorem arrive_reads (ws : List Stimulus) (s : State) : (arrive ws s).reads = s.reads := rfl
@[simp] theorem arrive_stimuli (ws : List Stimulus) (s : State) : (arrive ws s).stimuli = s.stimuli ++ ws := rfl

end Sys2Proof.Machine
end

