-- ==== Sys2Proof/Laws/Ops.lean ====
section
/-! SUPPORT. One law for each shared operation, saying once everything it does. -/

namespace Sys2Proof.Machine

/-! ## Taking an input event, and one step -/

/-- Everything `fetch` can answer. -/
theorem fetch_cases (s : State) :
    (s.stimuli = [] ∧ fetch s = none) ∨
      ∃ w rest, s.stimuli = w :: rest ∧ fetch s = some (w, { s with stimuli := rest }) := by
  unfold fetch
  cases h : s.stimuli with
  | nil => exact .inl ⟨rfl, rfl⟩
  | cons w rest => exact .inr ⟨w, rest, rfl, rfl⟩

@[simp] theorem fetch_pushStimulus (w : Stimulus) (s : State) : fetch (pushStimulus w s) = some (w, s) := rfl

/-- Everything a step that goes on can have done: no event and NOP, or one decoded operation. -/
theorem step_next_cases {s t : State} (h : step s = .next t) :
    (s.stimuli = [] ∧ exec .nop s = .next t) ∨
      ∃ w rest i, s.stimuli = w :: rest ∧ decode w = .ok i ∧ exec i { s with stimuli := rest } = .next t := by
  unfold step at h
  rcases fetch_cases s with ⟨hs, hf⟩ | ⟨w, rest, hs, hf⟩
  · rw [hf] at h; exact .inl ⟨hs, h⟩
  · rw [hf] at h
    cases hd : decode w with
    | error r => simp [hd] at h
    | ok i => simp only [hd] at h; exact .inr ⟨w, rest, i, hs, hd, h⟩

/-! ## Pin events -/

theorem boardAfter_nil (p : Pins) (c : Chain) : boardAfter [] p c = (p, c) := rfl

theorem boardAfter_cons (e : PinEvent) (es : List PinEvent) (p : Pins) (c : Chain) :
    boardAfter (e :: es) p c = boardAfter es (pinsAfter e p) (chainAfter e p.serData c) := rfl

theorem boardAfter_append (es fs : List PinEvent) (p : Pins) (c : Chain) :
    boardAfter (es ++ fs) p c = boardAfter fs (boardAfter es p c).1 (boardAfter es p c).2 := by
  simp [boardAfter, List.foldl_append]

/-- A sequence of pin events moves the pins and the chain, lengthens the trace, and changes nothing else. -/
theorem traceAll_eq (es : List PinEvent) (s : State) :
    traceAll es s = { s with
      pins := (boardAfter es s.pins s.chain).1
      chain := (boardAfter es s.pins s.chain).2
      pinTrace := s.pinTrace ++ es } := by
  induction es generalizing s with
  | nil => simp [traceAll, boardAfter]
  | cons e es ih =>
    have h : traceAll (e :: es) s = traceAll es (trace e s) := rfl
    rw [h, ih (trace e s)]
    simp [boardAfter_cons, trace]

/-! ## The serial frame -/

/-- The data bits and shift pulses of the first `n` positions of a frame. -/
def frameBits (p : Word) (n : Nat) : List PinEvent :=
  (List.range n).flatMap (fun i => [.data (p.getLsbD i), .shift])

theorem frame_eq (p : Word) : frame p = frameBits p 16 ++ [.latch] := rfl

theorem frameBits_succ (p : Word) (n : Nat) :
    frameBits p (n + 1) = frameBits p n ++ [.data (p.getLsbD n), .shift] := by
  simp [frameBits, List.range_succ, List.flatMap_append]

theorem frameBits_length (p : Word) (n : Nat) : (frameBits p n).length = 2 * n := by
  induction n with
  | zero => rfl
  | succ n ih => rw [frameBits_succ]; simp [ih]; omega

/-- A frame is 33 events (30_encoding.md rule R77). -/
theorem frame_length (p : Word) : (frame p).length = 33 := by
  rw [frame_eq]; simp [frameBits_length]

theorem shiftIn_getLsbD (xs : Word) (b : Bool) (i : Nat) :
    (shiftIn xs b).getLsbD i = if i = 15 then b else xs.getLsbD (1 + i) := by
  unfold shiftIn
  rw [BitVec.getLsbD_or, BitVec.getLsbD_ushiftRight, BitVec.getLsbD_shiftLeft, BitVec.getLsbD_setWidth,
    BitVec.getLsbD_ofBool]
  by_cases h : i = 15
  · subst h; simp
  · by_cases h2 : i < 15
    · simp [h, h2]
    · have : xs.getLsbD (1 + i) = false := BitVec.getLsbD_of_ge _ _ (by omega)
      have h3 : ¬ i < 16 := by omega
      simp [h, h3, this]

/-- After the first `n + 1` positions: SER_DATA holds the last bit sent and the top stages of XS hold the bits sent. -/
theorem boardAfter_frameBits (p : Word) (q : Pins) (c : Chain) (n : Nat) (hn : n ≤ 15) :
    (boardAfter (frameBits p (n + 1)) q c).1 = { q with serData := p.getLsbD n, serSck := false } ∧
      (boardAfter (frameBits p (n + 1)) q c).2.xl = c.xl ∧
      ∀ i, i ≤ n → (boardAfter (frameBits p (n + 1)) q c).2.xs.getLsbD (15 - n + i) = p.getLsbD i := by
  induction n with
  | zero =>
    refine ⟨rfl, rfl, ?_⟩
    intro i hi
    obtain rfl : i = 0 := by omega
    have : (boardAfter (frameBits p (0 + 1)) q c).2.xs = shiftIn c.xs (p.getLsbD 0) := rfl
    rw [this, shiftIn_getLsbD]; simp
  | succ n ih =>
    obtain ⟨h1, h2, h3⟩ := ih (by omega)
    rw [frameBits_succ, boardAfter_append]
    refine ⟨?_, ?_, ?_⟩
    · rw [h1]; rfl
    · simp only [boardAfter_cons, boardAfter_nil, chainAfter_data, chainAfter_shift]; exact h2
    · intro i hi
      simp only [boardAfter_cons, boardAfter_nil, chainAfter_data, chainAfter_shift, pinsAfter_data_serData,
        shiftIn_getLsbD]
      by_cases hin : i = n + 1
      · subst hin
        rw [if_pos (by omega)]
      · have e1 : ¬ (15 - (n + 1) + i = 15) := by omega
        have e2 : 1 + (15 - (n + 1) + i) = 15 - n + i := by omega
        rw [if_neg e1, e2]
        exact h3 i (by omega)

/-- After a frame: SER_DATA holds bit 15, both clocks are low, and the whole chain holds the pattern, whatever it held
(40_display_mux.md rule R101). -/
theorem boardAfter_frame (p : Word) (q : Pins) (c : Chain) :
    boardAfter (frame p) q c =
      ({ q with serData := p.getLsbD 15, serSck := false, serLck := false }, { xs := p, xl := p }) := by
  obtain ⟨h1, -, h3⟩ := boardAfter_frameBits p q c 15 (by omega)
  have hx : (boardAfter (frameBits p 16) q c).2.xs = p := by
    apply BitVec.eq_of_getLsbD_eq
    intro i hi
    have := h3 i (by omega)
    simpa using this
  rw [frame_eq, boardAfter_append, boardAfter_cons, boardAfter_nil, h1, chainAfter_latch, hx]
  rfl

/-- `emit(p)`: SR holds the pattern, the frame joins the trace, the chain shows the pattern, and nothing else changes. -/
theorem emit_eq (p : Word) (s : State) :
    emit p s = { s with
      sr := p
      pins := { s.pins with serData := p.getLsbD 15, serSck := false, serLck := false }
      chain := { xs := p, xl := p }
      pinTrace := s.pinTrace ++ frame p } := by
  rw [emit, traceAll_eq, boardAfter_frame]

/-! ## The register space -/

/-- A write, read back at its own address: the data cut to the register's width, Idle at BTN, 0 at HD and at a reserved
address (10_state.md rule R31). -/
theorem regRead_regWrite_self (a : RegAddr) (v : Word) (s : State) :
    regRead a (regWrite a v s) =
      if a.toNat < 6 ∨ a = 0x9#4 then (v.setWidth 8).setWidth 16
      else if a = 0x8#4 then (v.setWidth 3).setWidth 16
      else if a = 0xA#4 then 1#16
      else 0#16 := by
  unfold regRead regWrite
  by_cases h : a.toNat < 6
  · simp [h]
  · by_cases h8 : a = 0x8#4
    · subst h8; simp
    · by_cases h9 : a = 0x9#4
      · subst h9; simp
      · by_cases hA : a = 0xA#4
        · subst hA; simp
        · by_cases hB : a = 0xB#4
          · subst hB; simp
          · simp [h, h8, h9, hA, hB]

/-- A write leaves every other address as it was. -/
theorem regRead_regWrite_ne {a b : RegAddr} (hab : b ≠ a) (v : Word) (s : State) :
    regRead b (regWrite a v s) = regRead b s := by
  unfold regWrite
  split
  · next h =>
    unfold regRead
    split
    · next hb =>
      have : a.toNat ≠ b.toNat := fun e => hab (BitVec.eq_of_toNat_eq e.symm)
      simp [Vector.getElem_set_ne, this]
    · rfl
  · split_ifs <;> unfold regRead <;> simp_all

/-- A write changes registers only: the pins, the chain, the hidden cells and the records stay. -/
theorem regWrite_frame (a : RegAddr) (v : Word) (s : State) :
    regWrite a v s = { s with
      vb := (regWrite a v s).vb
      cursor := (regWrite a v s).cursor
      cchar := (regWrite a v s).cchar
      btn := (regWrite a v s).btn
      hd := (regWrite a v s).hd } := by
  unfold regWrite; split_ifs <;> rfl

/-! ## Characters and slots -/

/-- The supported codes as ranges (30_encoding.md rule R81). -/
theorem supported_iff (c : CharCode) :
    supported c = true ↔
      c = 0x20#8 ∨ (0x30 ≤ c.toNat ∧ c.toNat ≤ 0x39) ∨ (0x41 ≤ c.toNat ∧ c.toNat ≤ 0x5A) ∨ c = 0x5F#8 := by
  simp only [supported, Bool.or_eq_true, Bool.and_eq_true, beq_iff_eq, decide_eq_true_eq]
  tauto

/-- The next slot is the successor modulo six (40_display_mux.md rule R105). -/
theorem nextSlot_eq_succ : ∀ i : Slot, nextSlot i = i + 1 := by decide

/-- The mask of a digit line has that line's bit alone. -/
theorem digitMask_getLsbD : ∀ i j : Slot, (digitMask i).getLsbD j.val = decide (j = i) := by decide

/-! ## The scan -/

@[simp] theorem sampleRow_eq (m : SampleMap) (r : Fin 4) : sampleRow m r = m.extractLsb' (4 * r.val) 4 := by
  simp [sampleRow, readColumns, columnPins]

/-- The latched map is the sample map (41_keypad_decoder.md rule R121). -/
@[simp] theorem latchedMap_eq (m : SampleMap) : latchedMap m = m := by
  have h : (latchedMap m).toNat =
      (m.extractLsb' 12 4 ++ m.extractLsb' 8 4 ++ m.extractLsb' 4 4 ++ m.extractLsb' 0 4).toNat := by
    simp only [latchedMap, sampleRow_eq]; rfl
  apply BitVec.eq_of_toNat_eq
  have := m.isLt
  rw [h]
  simp only [BitVec.toNat_append, BitVec.extractLsb'_toNat, Nat.shiftRight_eq_div_pow]
  rw [← Nat.shiftLeft_add_eq_or_of_lt (by omega), ← Nat.shiftLeft_add_eq_or_of_lt (by omega),
    ← Nat.shiftLeft_add_eq_or_of_lt (by omega)]
  simp only [Nat.shiftLeft_eq]
  omega

/-- A scan leaves the rows parked and every other pin and the chain as they were. -/
theorem boardAfter_scanEvents (m : SampleMap) (q : Pins) (c : Chain) :
    boardAfter (scanEvents m) q c = ({ q with rowN := 0b0000#4 }, c) := rfl

@[simp] theorem keyPos_a : keyPos .a = 3 := by decide

/-! ## The counter and the decode -/

/-- Everything the counter's advance can be (41_keypad_decoder.md rule R123). -/
theorem advanceHd_cases (m : SampleMap) (hd : BitVec 14) :
    (m = 0#16 ∧ advanceHd m hd = hd) ∨ (m ≠ 0#16 ∧ hd + 1#14 = hdCeil ∧ advanceHd m hd = 0#14) ∨
      (m ≠ 0#16 ∧ hd + 1#14 ≠ hdCeil ∧ advanceHd m hd = hd + 1#14) := by
  unfold advanceHd
  by_cases hm : m = 0#16
  · exact .inl ⟨hm, by simp [hm]⟩
  · by_cases hc : hd + 1#14 = hdCeil
    · exact .inr (.inl ⟨hm, hc, by simp [hm, hc]⟩)
    · exact .inr (.inr ⟨hm, hc, by simp [hm, hc]⟩)

/-- The advance keeps the counter below its ceiling (10_state.md rule R47). -/
theorem advanceHd_le (m : SampleMap) {hd : BitVec 14} (h : hd.toNat ≤ 12499) : (advanceHd m hd).toNat ≤ 12499 := by
  rcases advanceHd_cases m hd with ⟨-, e⟩ | ⟨-, -, e⟩ | ⟨-, hc, e⟩ <;> rw [e]
  · exact h
  · decide
  · have hne : hd.toNat + 1 ≠ 12500 := by
      intro hh
      apply hc
      apply BitVec.eq_of_toNat_eq
      rw [BitVec.toNat_add]
      have h2 : hdCeil.toNat = 12500 := by decide
      have h3 : (1#14).toNat = 1 := by decide
      omega
    rw [BitVec.toNat_add]
    have h3 : (1#14).toNat = 1 := by decide
    omega

/-- Everything the decode of one position can do to the pending writes. -/
theorem decodeKey_cases (m : SampleMap) (aDown : Bool) (h : BitVec 14) (p : Pending) (k : KeyPos) :
    (m.getLsbD k.val = true ∧ decodeKey m aDown h p k = pressKey (keymap k) h p) ∨
      (m.getLsbD k.val = false ∧ keymap k = .a ∧ aDown = true ∧
        decodeKey m aDown h p k = { p with evt := some (releaseEvent h) }) ∨
      (m.getLsbD k.val = false ∧ ¬(keymap k = .a ∧ aDown = true) ∧ decodeKey m aDown h p k = p) := by
  unfold decodeKey
  by_cases h1 : m.getLsbD k.val = true
  · exact .inl ⟨h1, if_pos h1⟩
  · have h1' : m.getLsbD k.val = false := by simpa using h1
    by_cases h2 : keymap k = .a ∧ aDown = true
    · exact .inr (.inl ⟨h1', h2.1, h2.2, by rw [if_neg h1, if_pos h2]⟩)
    · refine .inr (.inr ⟨h1', h2, ?_⟩)
      rw [if_neg h1, if_neg h2]

/-- Everything an active key can do to the pending writes. -/
theorem pressKey_cases (l : KeyLabel) (h : BitVec 14) (p : Pending) :
    (l = .a ∧ pressKey l h p = p) ∨
      (∃ d, l = .digit d ∧ ∃ c, (pressKey l h p).cand = some c ∧ (pressKey l h p).evt = p.evt ∧
        ((pressKey l h p).hd = p.hd ∨ (pressKey l h p).hd = 0)) ∨
      (∃ e, e ≠ .none ∧ e ≠ .idle ∧ pressKey l h p = { p with evt := some e }) := by
  cases l with
  | digit d =>
    refine .inr (.inl ⟨d, rfl, ?_⟩)
    by_cases hd : d = 0
    · simp only [pressKey, hd, if_true, pressZero]
      split_ifs <;> simp
    · simp [pressKey, hd]
  | a => exact .inl ⟨rfl, rfl⟩
  | b => exact .inr (.inr ⟨.keyB, by decide, by decide, rfl⟩)
  | c => exact .inr (.inr ⟨.keyC, by decide, by decide, rfl⟩)
  | d => exact .inr (.inr ⟨.keyD, by decide, by decide, rfl⟩)
  | star => exact .inr (.inr ⟨.keyStar, by decide, by decide, rfl⟩)
  | hash => exact .inr (.inr ⟨.keyHash, by decide, by decide, rfl⟩)

/-- The event of a release is one of key A's two (41_keypad_decoder.md rule R130). -/
theorem releaseEvent_cases (h : BitVec 14) :
    (h.toNat ≤ aLong ∧ releaseEvent h = .keyA) ∨ (aLong < h.toNat ∧ releaseEvent h = .keyALongPress) := by
  unfold releaseEvent
  by_cases hh : h.toNat ≤ aLong
  · exact .inl ⟨hh, by simp [hh]⟩
  · exact .inr ⟨by omega, by simp [hh]⟩

/-! ## Runs -/

theorem runOps_append (is js : List Instr) (s t : State) (h : runOps is s = .next t) :
    runOps (is ++ js) s = runOps js t := by
  induction is generalizing s with
  | nil => simp only [runOps] at h; cases h; rfl
  | cons i is ih =>
    simp only [runOps, List.cons_append] at h ⊢
    cases he : exec i s with
    | next u => simp only [he] at h ⊢; exact ih u h
    | fault r => simp [he] at h
    | refused r => simp [he] at h

end Sys2Proof.Machine
end

