-- ==== Sys2Proof/Laws/Keypad.lean ====
section
/-! SUPPORT. The law of the decode of a sample map: what the fold over the sixteen positions leaves in each of the three
pending writes (41_keypad_decoder.md rule R120, phase 3). -/

namespace Sys2Proof.Machine

/-- The candidate a position sets (41_keypad_decoder.md rules R125 and R127). -/
def candAt (m : SampleMap) (h : BitVec 14) (k : KeyPos) : Option CharCode :=
  if m.getLsbD k.val = true then
    match keymap k with
    | .digit d =>
      some (if d = 0 then (if h.toNat < 2500 then 0x30#8 else if h.toNat < 5000 then 0x20#8 else 0x30#8) else tapChar d h)
    | .a => none
    | .b => none
    | .c => none
    | .d => none
    | .star => none
    | .hash => none
  else none

/-- A position sets a candidate exactly when a digit key is active there. -/
theorem candAt_eq_none (m : SampleMap) (h : BitVec 14) (k : KeyPos) : candAt m h k = none ↔ digitActive m k = false := by
  unfold candAt digitActive
  cases keymap k <;> cases m.getLsbD k.val <;> simp

/-- Key 0's three pending writes (41_keypad_decoder.md rule R127). -/
theorem pressZero_spec (h : BitVec 14) (p : Pending) :
    (pressZero h p).cand = some (if h.toNat < 2500 then 0x30#8 else if h.toNat < 5000 then 0x20#8 else 0x30#8) ∧
      (pressZero h p).evt = p.evt ∧ (pressZero h p).hd = if 5000 ≤ h.toNat then 0#14 else p.hd := by
  simp only [pressZero, stageStep]
  by_cases h1 : h.toNat < 2500
  · have : ¬ 5000 ≤ h.toNat := by omega
    simp [h1, this]
  · by_cases h2 : h.toNat < 5000
    · have : ¬ 5000 ≤ h.toNat := by omega
      simp [h1, h2, this]
    · have : 5000 ≤ h.toNat := by omega
      simp [h1, h2, this]

/-- The decode of one position, write by write. -/
theorem decodeKey_spec (m : SampleMap) (aDown : Bool) (h : BitVec 14) (p : Pending) (k : KeyPos) :
    (decodeKey m aDown h p k).cand = (candAt m h k).or p.cand ∧
      (decodeKey m aDown h p k).evt = (eventAt m aDown h.toNat k).or p.evt ∧
      (decodeKey m aDown h p k).hd =
        if m.getLsbD k.val = true ∧ keymap k = .digit 0 ∧ 5000 ≤ h.toNat then 0#14 else p.hd := by
  unfold decodeKey eventAt candAt
  generalize m.getLsbD k.val = b
  cases hk : keymap k with
  | digit d =>
    cases b
    · simp
    · by_cases hd : d = 0
      · subst hd; simp [pressKey, pressZero_spec]
      · simp [pressKey, hd]
  | a =>
    cases b <;> cases aDown <;> simp [pressKey, releaseEvent, aLong] <;> by_cases hh : h.toNat ≤ 4000 <;> simp [hh]
  | b => cases b <;> simp [pressKey]
  | c => cases b <;> simp [pressKey]
  | d => cases b <;> simp [pressKey]
  | star => cases b <;> simp [pressKey]
  | hash => cases b <;> simp [pressKey]

/-- The fold, write by write: the last position of the list that sets a candidate or an event wins. -/
theorem foldl_decodeKey_spec (m : SampleMap) (aDown : Bool) (h : BitVec 14) (l : List KeyPos) (p : Pending) :
    (l.foldl (decodeKey m aDown h) p).cand = (l.reverse.findSome? (candAt m h)).or p.cand ∧
      (l.foldl (decodeKey m aDown h) p).evt = (l.reverse.findSome? (eventAt m aDown h.toNat)).or p.evt := by
  induction l generalizing p with
  | nil => simp
  | cons k l ih =>
    simp only [List.foldl_cons, (ih _).1, (ih _).2, (decodeKey_spec _ _ _ _ _).1, (decodeKey_spec _ _ _ _ _).2.1,
      List.reverse_cons, List.findSome?_append, List.findSome?]
    constructor
    · cases List.findSome? (candAt m h) l.reverse <;> cases candAt m h k <;> simp
    · cases List.findSome? (eventAt m aDown h.toNat) l.reverse <;> cases eventAt m aDown h.toNat k <;> simp

/-- The decode: candidate and event of the highest position that sets one, and the count, cleared by key 0 at its third
stage (41_keypad_decoder.md rules R124, R127, R137). -/
theorem decodeKeys_spec (m : SampleMap) (aDown : Bool) (h : BitVec 14) :
    (decodeKeys m aDown h).cand = (List.finRange 16).reverse.findSome? (candAt m h) ∧
      (decodeKeys m aDown h).evt = (List.finRange 16).reverse.findSome? (eventAt m aDown h.toNat) ∧
      (decodeKeys m aDown h).hd = if m.getLsbD 13 = true ∧ 5000 ≤ h.toNat then 0#14 else h := by
  refine ⟨?_, ?_, ?_⟩
  · rw [decodeKeys, (foldl_decodeKey_spec m aDown h _ _).1]; simp
  · rw [decodeKeys, (foldl_decodeKey_spec m aDown h _ _).2]; simp
  · have key : ∀ (l : List KeyPos) (p : Pending), (l.foldl (decodeKey m aDown h) p).hd =
        if (m.getLsbD 13 = true ∧ 5000 ≤ h.toNat) ∧ (13 : KeyPos) ∈ l then 0#14 else p.hd := by
      intro l
      induction l with
      | nil => intro p; simp
      | cons k l ih =>
        intro p
        rw [List.foldl_cons, ih, (decodeKey_spec _ _ _ _ _).2.2]
        have hk : keymap k = .digit 0 ↔ k = 13 := by clear * -; revert k; decide
        by_cases h13 : k = 13
        · subst h13
          have : keymap 13 = .digit 0 := by decide
          simp only [this, true_and, List.mem_cons, true_or, and_true]
          have e : (13 : KeyPos).val = 13 := rfl
          rw [e]
          split_ifs <;> first | rfl | tauto
        · have h13' : ¬ (13 : KeyPos) = k := fun h => h13 h.symm
          simp [hk, h13, h13']
    rw [decodeKeys, key]; simp

/-- A search from the highest position down finds the highest that answers. -/
theorem findSome?_highest {α : Type} (f : KeyPos → Option α) {k : KeyPos} {a : α} (h1 : f k = some a)
    (h2 : ∀ k', k < k' → f k' = none) : (List.finRange 16).reverse.findSome? f = some a := by
  have key : ∀ l : List KeyPos, l.Pairwise (· > ·) → k ∈ l → l.findSome? f = some a := by
    intro l
    induction l with
    | nil => intro _ h; cases h
    | cons x l ih =>
      intro hp hm
      rw [List.pairwise_cons] at hp
      rcases List.mem_cons.1 hm with rfl | hm
      · simp [List.findSome?, h1]
      · simp only [List.findSome?, h2 x (hp.1 k hm)]
        exact ih hp.2 hm
  exact key _ (by decide) (by simp)

/-- The compare value as a number. -/
theorem advanceHd_toNat (m : SampleMap) {hd : BitVec 14} (h : hd.toNat ≤ 12499) :
    (advanceHd m hd).toNat = heldCount m hd := by
  have h3 : (1#14).toNat = 1 := rfl
  have h4 : (hd + 1#14).toNat = hd.toNat + 1 := by rw [BitVec.toNat_add]; omega
  unfold heldCount
  rcases advanceHd_cases m hd with ⟨h1, e⟩ | ⟨h1, h2, e⟩ | ⟨h1, h2, e⟩ <;> rw [e]
  · simp [h1]
  · have h2' : (hd + 1#14).toNat = 12500 := by rw [h2]; rfl
    rw [if_neg h1, if_pos (by omega)]; rfl
  · have h2' : (hd + 1#14).toNat ≠ 12500 := fun hh => h2 (BitVec.eq_of_toNat_eq hh)
    rw [if_neg h1, if_neg (by omega)]; omega

end Sys2Proof.Machine
end

