-- ==== Sys2Proof/Laws/PerInstr.lean ====
section
/-! SUPPORT. Statements made for each operation as syntax, one lemma per constructor. -/

namespace Sys2Proof.Laws.EncodingMatchesRow

/-- The word of a well-formed operation selects the row of the opcode map that bears its mnemonic (30_encoding.md rule R84). -/
def Statement (i : Instr) : Prop :=
  i.WellFormed → ∃ r ∈ opcodeMap, r.mnemonic = i.mnemonic ∧ r.selects (encode i)

theorem dataMask_bits : ∀ i : Fin 24, (0xFF0000#24).getLsbD i.val = decide (16 ≤ i.val) := by decide

/-- A bit above the data field is a bit of another field. -/
theorem high_bit (w : Stimulus) {i : Nat} (h1 : 16 ≤ i) (h2 : i < 24) :
    w.getLsbD i = if i < 20 then (addrField w).getLsbD (i - 16)
      else if i = 20 then (zField w).getLsbD 0 else (clsField w).getLsbD (i - 21) := by
  simp only [addrField, zField, clsField, BitVec.getLsbD_extractLsb']
  split_ifs with h3 h4
  · have e : 16 + (i - 16) = i := by omega
    have : i - 16 < 4 := by omega
    simp [e, this]
  · subst h4; rfl
  · have e : 21 + (i - 21) = i := by omega
    have : i - 21 < 3 := by omega
    simp [e, this]

/-- Masking away the data field of a built word. -/
theorem formatW_and_dataMask (c : BitVec 3) (a : RegAddr) (d : Word) :
    formatW c a d &&& 0xFF0000#24 = formatW c a 0#16 &&& 0xFF0000#24 := by
  apply BitVec.eq_of_getLsbD_eq
  intro i hi
  rw [BitVec.getLsbD_and, BitVec.getLsbD_and, dataMask_bits ⟨i, hi⟩]
  by_cases h : 16 ≤ i
  · rw [high_bit _ h hi, high_bit _ h hi]
    simp only [clsField_formatW, zField_formatW, addrField_formatW]
  · simp [h]

/-- A mask that drops the data field sees a built word as if its data were 0. -/
theorem formatW_and_mask {mask : Stimulus} (hm : 0xFF0000#24 &&& mask = mask) (c : BitVec 3) (a : RegAddr) (d : Word) :
    formatW c a d &&& mask = formatW c a 0#16 &&& mask := by
  rw [← hm, ← BitVec.and_assoc, formatW_and_dataMask, BitVec.and_assoc]

/-- The row at a position of the map, as a witness of the statement. -/
theorem of_row {i : Instr} (n : Fin 17) (hm : (opcodeMap[n.val]'(by simp [opcodeMap])).mnemonic = i.mnemonic)
    (hs : i.WellFormed → encode i &&& (opcodeMap[n.val]'(by simp [opcodeMap])).mask =
      (opcodeMap[n.val]'(by simp [opcodeMap])).pattern) : Statement i :=
  fun h => ⟨_, List.getElem_mem _, hm, hs h⟩

theorem nop : Statement .nop := of_row 0 (by decide) (fun _ => by decide)
theorem tick : Statement .tick := of_row 1 (by decide) (fun _ => by decide)
theorem kpscan (m : SampleMap) : Statement (.kpscan m) :=
  of_row 2 rfl (fun _ => (formatW_and_mask (mask := 0xFF0000#24) (by decide) 0b010#3 0#4 m).trans (by decide))
theorem idleto : Statement .idleto := of_row 3 (by decide) (fun _ => by decide)
theorem rdVb (idx : Nat) : Statement (.rdVb idx) :=
  of_row 4 rfl (fun h => by
    have h8 : idx < 8 := by simpa [Instr.WellFormed, Instr.wellFormed] using h
    interval_cases idx <;> decide)
theorem rdCursor : Statement .rdCursor := of_row 5 (by decide) (fun _ => by decide)
theorem rdCchar : Statement .rdCchar := of_row 6 (by decide) (fun _ => by decide)
theorem rdBtn : Statement .rdBtn := of_row 7 (by decide) (fun _ => by decide)
theorem rdHd : Statement .rdHd := of_row 8 (by decide) (fun _ => by decide)
theorem rdRsvd (lo : Nat) : Statement (.rdRsvd lo) :=
  of_row 9 rfl (fun h => by
    have h4 : lo < 4 := by simpa [Instr.WellFormed, Instr.wellFormed] using h
    interval_cases lo <;> decide)
theorem wrVb (idx : Nat) (d : Word) : Statement (.wrVb idx d) :=
  of_row 10 rfl (fun h => by
    have h8 : idx < 8 := by simpa [Instr.WellFormed, Instr.wellFormed] using h
    refine (formatW_and_mask (mask := 0xF80000#24) (by decide) 0b101#3 (vbAddr idx) d).trans ?_
    interval_cases idx <;> decide)
theorem wrCursor (d : Word) : Statement (.wrCursor d) :=
  of_row 11 rfl (fun _ => (formatW_and_mask (mask := 0xFF0000#24) (by decide) 0b101#3 0x8#4 d).trans (by decide))
theorem wrCchar (d : Word) : Statement (.wrCchar d) :=
  of_row 12 rfl (fun _ => (formatW_and_mask (mask := 0xFF0000#24) (by decide) 0b101#3 0x9#4 d).trans (by decide))
theorem ackBtn (d : Word) : Statement (.ackBtn d) :=
  of_row 13 rfl (fun _ => (formatW_and_mask (mask := 0xFF0000#24) (by decide) 0b101#3 0xA#4 d).trans (by decide))
theorem clrHd (d : Word) : Statement (.clrHd d) :=
  of_row 14 rfl (fun _ => (formatW_and_mask (mask := 0xFF0000#24) (by decide) 0b101#3 0xB#4 d).trans (by decide))
theorem wrRsvd (lo : Nat) (d : Word) : Statement (.wrRsvd lo d) :=
  of_row 15 rfl (fun h => by
    have h4 : lo < 4 := by simpa [Instr.WellFormed, Instr.wellFormed] using h
    refine (formatW_and_mask (mask := 0xFC0000#24) (by decide) 0b101#3 (rsvdAddr lo) d).trans ?_
    interval_cases lo <;> decide)
theorem reset : Statement .reset := of_row 16 (by decide) (fun _ => by decide)

end Sys2Proof.Laws.EncodingMatchesRow
end

