-- ==== Sys2Proof/Laws/Runs.lean ====
section
/-! SUPPORT. Laws of infinite runs: what a step of a run performs, that no state blocks a TICK, and that fair runs exist
(40_display_mux.md rule R108). -/

namespace Sys2Proof.Machine

/-- Everything `performed` can answer, with the step it goes with. -/
theorem performed_cases (s : State) :
    (s.stimuli = [] ∧ performed s = some .nop ∧ step s = exec .nop s) ∨
      (∃ w rest i, s.stimuli = w :: rest ∧ decode w = .ok i ∧ performed s = some i ∧
        step s = exec i { s with stimuli := rest }) ∨
      (∃ w rest r, s.stimuli = w :: rest ∧ decode w = .error r ∧ performed s = none ∧
        step s = .refused (.noOperation r)) := by
  rcases fetch_cases s with ⟨hs, hf⟩ | ⟨w, rest, hs, hf⟩
  · exact .inl ⟨hs, by simp [performed, hf], by simp [step, hf]⟩
  · cases hd : decode w with
    | ok i => exact .inr (.inl ⟨w, rest, i, hs, hd, by simp [performed, hf, hd], by simp [step, hf, hd]⟩)
    | error r => exact .inr (.inr ⟨w, rest, r, hs, hd, by simp [performed, hf, hd], by simp [step, hf, hd]⟩)

/-- A step that performs an operation is that operation on the state with the tail of its pending words. -/
theorem step_of_performed {s : State} {i : Instr} (h : performed s = some i) :
    step s = exec i { s with stimuli := s.stimuli.tail } := by
  rcases performed_cases s with ⟨hs, hp, he⟩ | ⟨w, rest, j, hs, -, hp, he⟩ | ⟨w, rest, r, -, -, hp, -⟩
  · rw [hp] at h; cases h
    have : ({ s with stimuli := s.stimuli.tail } : State) = s := by cases s; simp only at hs; subst hs; rfl
    rw [he, this]
  · rw [hp] at h; cases h; rw [he, hs]; rfl
  · rw [hp] at h; cases h

/-- A step of a run performs an operation: a run meets no word that spells none. -/
theorem performedAt_of_isRun {arr : Nat → List Stimulus} {run : Nat → State} (h : IsRun arr run) (n : Nat) :
    ∃ i, performedAt arr run n = some i ∧
      exec i { arrive (arr n) (run n) with stimuli := (arrive (arr n) (run n)).stimuli.tail } = .next (run (n + 1)) := by
  have hn := h n
  rcases performed_cases (arrive (arr n) (run n)) with ⟨-, hp, -⟩ | ⟨w, rest, i, -, -, hp, -⟩ | ⟨w, rest, r, -, -, -, he⟩
  · exact ⟨_, hp, by rw [← step_of_performed hp, hn]⟩
  · exact ⟨_, hp, by rw [← step_of_performed hp, hn]⟩
  · rw [he] at hn; cases hn

/-- The states that follow one another when a TICK occurs at every step. -/
def tickForever (s : State) : Nat → State
  | 0 => s
  | n + 1 => { enableDigit (nextSlot (tickForever s n).activeSlot)
      (emit (patternFor (shownChar (nextSlot (tickForever s n).activeSlot) (tickForever s n)))
        (disableDigit (tickForever s n).activeSlot (tickForever s n))) with
      activeSlot := nextSlot (tickForever s n).activeSlot }

theorem tickForever_stimuli {s : State} (h : s.stimuli = []) (n : Nat) : (tickForever s n).stimuli = [] := by
  induction n with
  | zero => exact h
  | succ n ih => simp only [tickForever, enableDigit, disableDigit, trace_stimuli, emit_eq]; exact ih

/-- Where nothing is pending and a TICK occurs, the step is the TICK. -/
theorem step_arrive_tick {s : State} (h : s.stimuli = []) :
    performed (arrive [0x200000#24] s) = some .tick ∧ step (arrive [0x200000#24] s) = exec .tick s := by
  have hd : decode 0x200000#24 = .ok .tick := by decide
  have hf : fetch (arrive [0x200000#24] s) = some (0x200000#24, s) := by
    cases s; simp only at h; subst h; rfl
  exact ⟨by simp [performed, hf, hd], by simp [step, hf, hd]⟩

/-- A TICK at every step is a fair run, from every state with nothing pending. -/
theorem tickForever_isRun {s : State} (h : s.stimuli = []) :
    IsRun (fun _ => [0x200000#24]) (tickForever s) ∧ Fair (fun _ => [0x200000#24]) (tickForever s) ∧
      ∀ n, performedAt (fun _ => [0x200000#24]) (tickForever s) n = some .tick := by
  have hp : ∀ n, performedAt (fun _ => [0x200000#24]) (tickForever s) n = some .tick :=
    fun n => (step_arrive_tick (tickForever_stimuli h n)).1
  exact ⟨fun n => (step_arrive_tick (tickForever_stimuli h n)).2, fun n => ⟨n, le_refl n, hp n⟩, hp⟩

end Sys2Proof.Machine
end

