-- ==== Sys2Proof/Tests/Slice0.lean ====
section
/-! SUPPORT. Tests: ill-formed operations, words written out bit by bit from the encoding, one-step vectors of
95_test_vectors.md (the vector's id is named), and a witness for the hypotheses of each statement that has any. -/

set_option maxRecDepth 8000

namespace Sys2Proof.Tests

open Sys2Proof.Machine

/-! ## Well-formedness -/

theorem test_ill_formed_rdVb : ¬ (Instr.rdVb 8).WellFormed := by decide
theorem test_ill_formed_wrVb : ¬ (Instr.wrVb 8 0#16).WellFormed := by decide
theorem test_ill_formed_rdRsvd : ¬ (Instr.rdRsvd 4).WellFormed := by decide
theorem test_ill_formed_wrRsvd : ¬ (Instr.wrRsvd 4 0#16).WellFormed := by decide

/-! ## Decoding: words written as `cls z addr data` from 30_encoding.md rules R71, R72, R74 -/

theorem test_decode_nop : decode 0b000_0_0000_0000000000000000#24 = .ok .nop := by decide
theorem test_decode_tick : decode 0b001_0_0000_0000000000000000#24 = .ok .tick := by decide
theorem test_decode_kpscan : decode 0b010_0_0000_0010010000000000#24 = .ok (.kpscan 0x2400#16) := by decide
theorem test_decode_idleto : decode 0b011_0_0000_0000000000000000#24 = .ok .idleto := by decide
theorem test_decode_rdVb : decode 0b100_0_0101_0000000000000000#24 = .ok (.rdVb 5) := by decide
theorem test_decode_rdVb_reserved : decode 0b100_0_0111_0000000000000000#24 = .ok (.rdVb 7) := by decide
theorem test_decode_rdCursor : decode 0b100_0_1000_0000000000000000#24 = .ok .rdCursor := by decide
theorem test_decode_rdCchar : decode 0b100_0_1001_0000000000000000#24 = .ok .rdCchar := by decide
theorem test_decode_rdBtn : decode 0b100_0_1010_0000000000000000#24 = .ok .rdBtn := by decide
theorem test_decode_rdHd : decode 0b100_0_1011_0000000000000000#24 = .ok .rdHd := by decide
theorem test_decode_rdRsvd : decode 0b100_0_1101_0000000000000000#24 = .ok (.rdRsvd 1) := by decide
theorem test_decode_wrVb : decode 0b101_0_0011_0001001000110100#24 = .ok (.wrVb 3 0x1234#16) := by decide
theorem test_decode_wrCursor : decode 0b101_0_1000_0000000000001010#24 = .ok (.wrCursor 0x000A#16) := by decide
theorem test_decode_wrCchar : decode 0b101_0_1001_0000000101000001#24 = .ok (.wrCchar 0x0141#16) := by decide
theorem test_decode_ackBtn : decode 0b101_0_1010_0000000000000110#24 = .ok (.ackBtn 0x0006#16) := by decide
theorem test_decode_clrHd : decode 0b101_0_1011_0000000100100011#24 = .ok (.clrHd 0x0123#16) := by decide
theorem test_decode_wrRsvd : decode 0b101_0_1110_1000000000000001#24 = .ok (.wrRsvd 2 0x8001#16) := by decide
theorem test_decode_reset : decode 0b111_0_0000_0000000000000000#24 = .ok .reset := by decide

/-- The refused words of vectors E2 to E18. -/
theorem test_decode_refused :
    (decode 0x210000#24 = .error .addrNotZero ∧ decode 0x200001#24 = .error .dataNotZero ∧
      decode 0x300000#24 = .error .zBitSet ∧ decode 0x410000#24 = .error .addrNotZero ∧
      decode 0x800001#24 = .error .dataNotZero ∧ decode 0xB00000#24 = .error .zBitSet) ∧
    (decode 0xC00000#24 = .error .unassignedClass ∧ decode 0xC12345#24 = .error .unassignedClass ∧
      decode 0xDFFFFF#24 = .error .unassignedClass) ∧
    (decode 0xE00001#24 = .error .dataNotZero ∧ decode 0xE10000#24 = .error .addrNotZero ∧
      decode 0xF00000#24 = .error .zBitSet ∧ decode 0x000001#24 = .error .dataNotZero ∧
      decode 0x100000#24 = .error .zBitSet ∧ decode 0x600100#24 = .error .dataNotZero) := by decide

/-- The host's numbering: bit 0 is the least significant; a 25-bit value is no stimulus word. -/
theorem test_decodeTableWord :
    decodeTableWord 24 0xA31234 = some (.wrVb 3 0x1234#16) ∧ decodeTableWord 24 0x210000 = none ∧
      decodeTableWord 32 0x1200000 = none := by decide

/-! ## One step -/

/-- The next state of an outcome. -/
def out : Host.Outcome State Fault Refusal → Option State
  | .next t => some t
  | .fault _ => none
  | .refused _ => none

/-- The reset state beside a display chain that holds the values of vector T7. -/
def boot : State := { State.reset with chain := { xs := 0xFFFF#16, xl := 0x1234#16 } }

/-- A refresh step on `boot` with another slot, cursor and buffer. -/
def ticked (slot : Slot) (cursor : BitVec 3) (vb : Vector CharCode 6) : Option State :=
  out (exec .tick { boot with activeSlot := slot, cursor := cursor, vb := vb })

/-- The buffer "ABCDEF". -/
def letters : Vector CharCode 6 := #v[0x41#8, 0x42#8, 0x43#8, 0x44#8, 0x45#8, 0x46#8]

/-- T1: from reset, 35 events, slot 1, line 1 low, an unlit pattern latched. -/
theorem test_tick_from_reset :
    (out (exec .tick boot)).map (fun t => (t.activeSlot.val, t.sr, t.pins.digN, t.chain.xl, (t.pinTrace.drop 1).length)) =
      some (1, 0x0000#16, 0b111101#6, 0x0000#16, 35) := by decide

/-- T2, T3, T4: the wrap, the cursor slot, and the slot after it. -/
theorem test_tick_selects_the_character :
    (ticked 5 6#3 letters).map (fun t => (t.activeSlot.val, t.sr)) = some (0, Config.segTable 0x41#8) ∧
    (ticked 1 2#3 letters).map (fun t => (t.activeSlot.val, t.sr)) = some (2, Config.segTable 0x5F#8) ∧
    (ticked 2 2#3 letters).map (fun t => (t.activeSlot.val, t.sr)) = some (3, Config.segTable 0x44#8) := ⟨rfl, rfl, rfl⟩

/-- A KPSCAN on `boot` with another count, aDown and event: count, candidate, event, aDown after. -/
def scanned (hd : BitVec 14) (aDown : Bool) (btn : BitVec 4) (m : SampleMap) :
    Option (BitVec 14 × CharCode × BitVec 4 × Bool) :=
  (out (exec (.kpscan m) { boot with hd := hd, aDown := aDown, btn := btn })).map (fun t => (t.hd, t.cchar, t.btn, t.aDown))

/-- K2, K3, K7, K8, K10, K11, K27, K28, K33: stages, the wrap, the fifth stage, key 0's clear, all keys at once. -/
theorem test_kpscan_candidates :
    scanned 2498#14 false 0#4 0x0002#16 = some (2499#14, 0x32#8, 0#4, false) ∧
    scanned 2499#14 false 0#4 0x0002#16 = some (2500#14, 0x41#8, 0#4, false) ∧
    scanned 7499#14 false 0#4 0x0002#16 = some (7500#14, 0x43#8, 0#4, false) ∧
    scanned 9999#14 false 0#4 0x0002#16 = some (10000#14, 0x43#8, 0#4, false) ∧
    scanned 12499#14 false 0#4 0x0002#16 = some (0#14, 0x32#8, 0#4, false) ∧
    scanned 9999#14 false 0#4 0x0400#16 = some (10000#14, 0x5A#8, 0#4, false) ∧
    scanned 4999#14 false 0#4 0x2000#16 = some (0#14, 0x30#8, 0#4, false) ∧
    scanned 4999#14 false 0#4 0x2400#16 = some (0#14, 0x30#8, 0#4, false) ∧
    scanned 0#14 false 0#4 0xFFFF#16 = some (1#14, 0x30#8, 6#4, true) := by and_intros <;> decide

/-- K12, K14, K16 to K20, K22, K29: command keys, key A's edge and its threshold, the order of the two event writers. -/
theorem test_kpscan_events :
    scanned 0#14 false 0#4 0x1000#16 = some (1#14, 0x5F#8, 8#4, false) ∧
    scanned 0#14 false 0#4 0x0008#16 = some (1#14, 0x5F#8, 0#4, true) ∧
    scanned 4000#14 true 0#4 0x0000#16 = some (4000#14, 0x5F#8, 2#4, false) ∧
    scanned 4001#14 true 0#4 0x0000#16 = some (4001#14, 0x5F#8, 3#4, false) ∧
    scanned 3999#14 true 0#4 0x0020#16 = some (4000#14, 0x4A#8, 2#4, false) ∧
    scanned 4000#14 true 0#4 0x0020#16 = some (4001#14, 0x4A#8, 3#4, false) ∧
    scanned 1#14 true 0#4 0x8000#16 = some (2#14, 0x5F#8, 6#4, false) ∧
    scanned 7#14 false 1#4 0x0000#16 = some (7#14, 0x5F#8, 1#4, false) ∧
    scanned 4999#14 true 0#4 0x2000#16 = some (0#14, 0x30#8, 3#4, false) := by and_intros <;> decide

/-- K30. -/
theorem test_idleto :
    out (exec .idleto { boot with hd := 777#14, cchar := 0x42#8, btn := 4#4, aDown := true }) =
      some { boot with hd := 0#14, cchar := 0x42#8, btn := 4#4, aDown := true } := by decide

/-- The word the last read returned. -/
def lastRead (i : Instr) (s : State) : Option Word := (out (exec i s)).bind (fun t => t.reads.getLast?)

/-- H1, H3, H5. -/
theorem test_rdVb :
    lastRead (.rdVb 0) boot = some 0x0020#16 ∧ lastRead (.rdVb 3) { boot with vb := letters } = some 0x0044#16 ∧
      lastRead (.rdVb 7) { boot with vb := letters } = some 0x0000#16 := by decide

/-- H6, H8. -/
theorem test_rdCursor :
    lastRead .rdCursor boot = some 0x0006#16 ∧ lastRead .rdCursor { boot with cursor := 7#3 } = some 0x0007#16 := by decide

/-- H9. -/
theorem test_rdCchar : lastRead .rdCchar boot = some 0x005F#16 := by decide

/-- H11. -/
theorem test_rdBtn :
    out (exec .rdBtn { boot with btn := 6#4 }) = some { boot with btn := 6#4, reads := [0x0006#16] } := by decide

/-- H15. -/
theorem test_rdHd : lastRead .rdHd { boot with hd := 5000#14 } = some 0x1388#16 := by decide

/-- H17. -/
theorem test_rdRsvd : lastRead (.rdRsvd 0) boot = some 0x0000#16 ∧ lastRead (.rdRsvd 3) boot = some 0x0000#16 := by decide

/-- H2, H4. -/
theorem test_wrVb :
    (out (exec (.wrVb 3 0x1234#16) boot)).map (fun t => t.vb) = some #v[0x20#8, 0x20#8, 0x20#8, 0x34#8, 0x20#8, 0x20#8] ∧
      out (exec (.wrVb 6 0x00FF#16) boot) = some boot := by decide

/-- H7, H8. -/
theorem test_wrCursor :
    (out (exec (.wrCursor 0x000A#16) boot)).map (fun t => t.cursor) = some 2#3 ∧
      (out (exec (.wrCursor 0x0007#16) boot)).map (fun t => t.cursor) = some 7#3 := by decide

/-- H10. -/
theorem test_wrCchar : (out (exec (.wrCchar 0x0141#16) boot)).map (fun t => t.cchar) = some 0x41#8 := by decide

/-- H13, H14. -/
theorem test_ackBtn :
    out (exec (.ackBtn 0x0006#16) { boot with btn := 6#4 }) = some { boot with btn := 1#4 } ∧
      out (exec (.ackBtn 0#16) boot) = some { boot with btn := 1#4 } := by decide

/-- H16. -/
theorem test_clrHd :
    out (exec (.clrHd 0x0123#16) { boot with hd := 5000#14, aDown := true }) = some { boot with aDown := true } := by decide

/-- H18. -/
theorem test_wrRsvd : out (exec (.wrRsvd 1 0xFFFF#16) boot) = some boot := by decide

/-- H19. -/
theorem test_nop : out (exec .nop boot) = some boot := by decide

/-- Z1. -/
theorem test_reset :
    out (exec .reset
      { boot with
        vb := letters, cursor := 2#3, cchar := 0x42#8, btn := 6#4, hd := 9000#14, activeSlot := 4, aDown := true
        pins := { boot.pins with digN := 0b101111#6 } }) =
      some { boot with pinTrace := [.pinsReset, .pinsReset] } := by decide

/-- A pending word is taken and performed; a word that spells nothing is refused. -/
theorem test_step :
    (out (step (boot.withFetchWord 24 0x400002))).map (fun t => (t.hd, t.stimuli)) = some (1#14, []) ∧
      step (boot.withFetchWord 24 0x210000) = .refused (.noOperation .addrNotZero) := ⟨by decide, rfl⟩

/-! ## Witnesses: concrete states and operands that meet the hypotheses of the statements, clause by clause -/

/-- `boot` with a KPSCAN of key 2 pending. -/
def pending : State := { boot with stimuli := [0x400002#24] }

theorem witness_DecodeOfEncode :
    (Instr.rdVb 7).WellFormed ∧ (Instr.wrVb 0 0xFFFF#16).WellFormed ∧ (Instr.rdRsvd 3).WellFormed ∧
      (Instr.wrRsvd 0 0#16).WellFormed ∧ Instr.tick.WellFormed := by decide

theorem witness_EncodeOfDecode : decode 0xA7FFFF#24 = .ok (.wrVb 7 0xFFFF#16) := by decide

theorem witness_RefusedWordsAreExactlyTheInvalidOnes :
    (decode 0xA31234#24 = .ok (.wrVb 3 0x1234#16)) ∧
    ({ boot with stimuli := [0x210000#24] }.stimuli = [0x210000#24] ∧ decode 0x210000#24 = .error .addrNotZero) ∧
    ((6 = 6 ∨ 6 = 7) ∧ (7 = 6 ∨ 7 = 7)) ∧ (0 < 4 ∧ 3 < 4) := by decide

theorem witness_OpcodeMapIsTheDecoder :
    (⟨"WR.VB", 0xA00000, 0xF80000⟩ : OpcodeRow) ∈ opcodeMap ∧
      0xA71234#24 &&& (0xF80000#24) = 0xA00000#24 ∧ (0 < 8 ∧ 7 < 8) ∧ (0 < 4 ∧ 3 < 4) := by decide

theorem witness_StepRunsTheDecodedOperation :
    pending.stimuli = 0x400002#24 :: [] ∧ decode 0x400002#24 = .ok (.kpscan 0x0002#16) := by decide

theorem witness_StepWithoutEventChangesNothing : boot.stimuli = [] := by decide

theorem witness_StepOnlyExtendsObservations : ∃ t, step pending = .next t ∧ t.hd = 1#14 := ⟨_, rfl, rfl⟩

theorem boot_stateInv : StateInv boot where
  slot_le := by decide
  hd_le := by decide
  btn_le := by decide
  low_is_active := by decide
  sck_low := rfl
  lck_low := rfl

theorem witness_StepKeepsStateInv : StateInv pending ∧ ∃ t, step pending = .next t ∧ t.hd = 1#14 :=
  ⟨⟨by decide, by decide, by decide, by decide, rfl, rfl⟩, _, rfl, rfl⟩

theorem witness_ReachableStatesSatisfyStateInv :
    ∃ t, Host.Core.run Sys2Proof.core 2 { State.reset with stimuli := [0x200000#24, 0x400002#24] } = .next t ∧
      t.activeSlot.val = 1 ∧ t.hd = 1#14 := ⟨_, rfl, rfl, rfl⟩

theorem witness_StepKeepsTraceExplainsPins :
    TraceExplains boot.pins boot.chain pending ∧ ∃ t, step pending = .next t ∧ t.pins.rowN = 0b0000#4 :=
  ⟨rfl, _, rfl, rfl⟩

theorem witness_OnlyTickAndResetMoveTheSlot :
    (∃ t, exec (.wrCursor 5#16) boot = .next t) ∧ Instr.wrCursor 5#16 ≠ .tick ∧ Instr.wrCursor 5#16 ≠ .reset ∧
      (0 < 5 ∧ 4 < 5 ∧ ¬ 5 < 5) := ⟨⟨_, rfl⟩, by decide, by decide, by decide⟩

theorem witness_TickDisablesEmitsEnables :
    StateInv boot ∧ ((1 ≤ 1 ∧ 1 ≤ 34) ∧ (1 ≤ 34 ∧ 34 ≤ 34)) ∧ (0 ≤ 33 ∧ 33 ≤ 33) ∧ 34 ≤ 34 ∧
      (∃ t, exec .reset boot = .next t) ∧ Instr.reset ≠ .tick :=
  ⟨boot_stateInv, by decide, by decide, by decide, ⟨_, rfl⟩, by decide⟩

theorem witness_DigitLinesMoveAlone :
    (∃ t, exec (.kpscan 0x0002#16) boot = .next t) ∧ Instr.kpscan 0x0002#16 ≠ .tick ∧
      boot.pins.digN.getLsbD 0 = true ∧ boot.pins.digN.getLsbD 5 = true := ⟨⟨_, rfl⟩, by decide, by decide, by decide⟩

theorem witness_SixTicksEnableEachDigitOnce :
    StateInv boot ∧
      Instr.reset ∉ [Instr.tick, .kpscan 0x0002#16, .tick, .tick, .wrVb 1 0x41#16, .tick, .tick, .rdHd, .tick] ∧
      [Instr.tick, .kpscan 0x0002#16, .tick, .tick, .wrVb 1 0x41#16, .tick, .tick, .rdHd, .tick].count .tick = 6 :=
  ⟨boot_stateInv, by decide, by decide⟩

theorem witness_PatternLookupContract :
    (¬ ((0x2F#8 : CharCode) = 0x20#8 ∨ (0x30 ≤ (0x2F#8).toNat ∧ (0x2F#8).toNat ≤ 0x39) ∨
      (0x41 ≤ (0x2F#8).toNat ∧ (0x2F#8).toNat ≤ 0x5A) ∨ 0x2F#8 = 0x5F#8)) ∧
    (0x30 ≤ (0x30#8).toNat ∧ (0x30#8).toNat ≤ 0x39) ∧ (0x41 ≤ (0x5A#8).toNat ∧ (0x5A#8).toNat ≤ 0x5A) := by decide

theorem witness_WriteIsVisibleWithinSixTicks :
    (0 < 6 ∧ boot.cursor.toNat ≠ 0) ∧ (5 < 6 ∧ boot.cursor.toNat ≠ 5) ∧
      { boot with cursor := 0#3 }.cursor.toNat < 6 ∧ { boot with cursor := 5#3 }.cursor.toNat < 6 := by decide

/-- A TICK at every step, from `boot`: a fair run without RESET (40_display_mux.md rule R108). -/
theorem witness_fair_run :
    IsRun (fun _ => [0x200000#24]) (tickForever boot) ∧ Fair (fun _ => [0x200000#24]) (tickForever boot) ∧
      ∀ n, performedAt (fun _ => [0x200000#24]) (tickForever boot) n ≠ some .reset := by
  obtain ⟨hr, hf, hp⟩ := tickForever_isRun (s := boot) rfl
  exact ⟨hr, hf, fun n => by rw [hp n]; decide⟩

theorem witness_TicksAreInvisibleToTheHost :
    ∃ t, runOps [.tick, .kpscan 0x0002#16, .tick, .rdHd] boot = .next t ∧ t.reads = [0x0001#16] := ⟨_, rfl, rfl⟩

theorem witness_TickAndScanCommute : boot.cursor.toNat ≠ (boot.activeSlot + 1).val := by decide

/-- The three boundary cases of the count: none active, the wrap, key 0 at its third stage, and one more. -/
theorem witness_ScanCommitsTheCount :
    (0#14 : BitVec 14).toNat ≤ 12499 ∧ (12499#14 : BitVec 14).toNat ≤ 12499 ∧
      (0x0002#16 ≠ 0#16 ∧ (12499#14 : BitVec 14).toNat + 1 = 12500) ∧
      (0x2000#16 &&& keyMask (.digit 0) ≠ 0#16 ∧ 5000 ≤ (4999#14 : BitVec 14).toNat + 1) ∧
      ¬ 5000 ≤ (4998#14 : BitVec 14).toNat + 1 := by decide

theorem witness_HighestDigitKeySetsTheCandidate :
    (2499#14 : BitVec 14).toNat ≤ 12499 ∧
    (keymap 5 = .digit 5 ∧ (0x0022#16).getLsbD 5 = true ∧ ∀ k' : KeyPos, 5 < k' → digitActive 0x0022#16 k' = false) ∧
    (keymap 13 = .digit 0 ∧ (0x2400#16).getLsbD 13 = true ∧ ∀ k' : KeyPos, 13 < k' → digitActive 0x2400#16 k' = false) ∧
    (heldCount 0x2400#16 2498#14 < 2500 ∧ ¬ heldCount 0x2400#16 2499#14 < 2500 ∧ heldCount 0x2400#16 4998#14 < 5000 ∧
      ¬ heldCount 0x2400#16 4999#14 < 5000) ∧
    (∀ k : KeyPos, digitActive 0x8888#16 k = false) := by decide

theorem witness_HighestEventPositionSetsTheEvent :
    (4000#14 : BitVec 14).toNat ≤ 12499 ∧
    (eventAt 0x0001#16 true (heldCount 0x0001#16 3999#14) 3 = some .keyA ∧
      ∀ k' : KeyPos, 3 < k' → eventAt 0x0001#16 true (heldCount 0x0001#16 3999#14) k' = none) ∧
    (eventAt 0x0001#16 true (heldCount 0x0001#16 4000#14) 3 = some .keyALongPress ∧
      ∀ k' : KeyPos, 3 < k' → eventAt 0x0001#16 true (heldCount 0x0001#16 4000#14) k' = none) ∧
    (eventAt 0x8080#16 true (heldCount 0x8080#16 4000#14) 15 = some .keyD ∧
      ∀ k' : KeyPos, 15 < k' → eventAt 0x8080#16 true (heldCount 0x8080#16 4000#14) k' = none) ∧
    (∀ k : KeyPos, eventAt 0x0009#16 true (heldCount 0x0009#16 4000#14) k = none) := by decide

theorem witness_KeyListsCoverTheAlphabetOnce :
    (0x41 ≤ (0x41#8).toNat ∧ (0x41#8).toNat ≤ 0x5A) ∧ (0x41 ≤ (0x5A#8).toNat ∧ (0x5A#8).toNat ≤ 0x5A) := by decide

theorem witness_KeyZeroStages :
    (2498#14 : BitVec 14).toNat ≤ 12499 ∧ (12499#14 : BitVec 14).toNat ≤ 12499 ∧ (0x2000#16).getLsbD 13 = true ∧
      heldCount 0x2000#16 2498#14 < 2500 ∧
      (2500 ≤ heldCount 0x2000#16 2499#14 ∧ heldCount 0x2000#16 2499#14 < 5000) ∧
      (2500 ≤ heldCount 0x2000#16 4998#14 ∧ heldCount 0x2000#16 4998#14 < 5000) ∧
      5000 ≤ heldCount 0x2000#16 4999#14 := by decide

theorem witness_KeyOneAlwaysYieldsOne :
    (keymap 0 = .digit 1 ∧ (0xFFFF#16).getLsbD (0 : KeyPos).val = true) ∧
    (12499#14 : BitVec 14).toNat ≤ 12499 ∧ (0#14 : BitVec 14).toNat ≤ 12499 ∧ 0x8001#16 &&& keyMask (.digit 1) ≠ 0#16 ∧
      (∀ k : KeyPos, digitActive 0x8001#16 k = true → keymap k = .digit 1) ∧ (12499#14 : BitVec 14).toNat + 1 = 12500 := by
  decide

theorem witness_CandidateIgnoresTheCursor : 0xD888#16 &&& 0x2777#16 = 0#16 := by decide

theorem witness_CommandKeysPublish :
    (0x8000#16).getLsbD 15 = true ∧ ((0x4000#16).getLsbD 15 = false ∧ (0x4000#16).getLsbD 14 = true) ∧
    ((0x1000#16).getLsbD 15 = false ∧ (0x1000#16).getLsbD 14 = false ∧ (0x1000#16).getLsbD 12 = true) ∧
    ((0x0800#16).getLsbD 15 = false ∧ (0x0800#16).getLsbD 14 = false ∧ (0x0800#16).getLsbD 12 = false ∧
      (0x0800#16).getLsbD 11 = true) ∧
    ((0x0080#16).getLsbD 15 = false ∧ (0x0080#16).getLsbD 14 = false ∧ (0x0080#16).getLsbD 12 = false ∧
      (0x0080#16).getLsbD 11 = false ∧ (0x0080#16).getLsbD 7 = true) := by decide

theorem witness_KeyAPublishesOnRelease :
    { boot with hd := 4000#14, aDown := true }.hd.toNat ≤ 12499 ∧ 0x0000#16 &&& 0xD880#16 = 0#16 ∧
    ({ boot with hd := 4000#14, aDown := true }.aDown = true ∧ (0x0000#16).getLsbD 3 = false ∧
      heldCount 0x0000#16 4000#14 ≤ 4000 ∧ 4000 < heldCount 0x0000#16 4001#14) ∧
    (0x0008#16 &&& 0xD880#16 = 0#16 ∧ (0x0008#16).getLsbD 3 = true) ∧ boot.aDown = false := by decide

theorem witness_ADownIsKeyAOfTheLastScan :
    (∀ m', Instr.kpscan m' ∉ [Instr.tick, .ackBtn 0#16, .clrHd 0#16]) ∧
      Instr.reset ∉ [Instr.tick, .ackBtn 0#16, .clrHd 0#16] := ⟨by simp, by decide⟩

theorem witness_ScanWithEveryKeyUp :
    { boot with aDown := true, hd := 4000#14 }.hd.toNat ≤ 4000 ∧
      ¬ { boot with aDown := true, hd := 4001#14 }.hd.toNat ≤ 4000 := by decide

theorem witness_HoldingKeyTwoWalksItsList :
    boot.hd = 0#14 ∧ (1 ≤ 1 ∧ 2499 < 2500) ∧ (¬ 2500 < 2500 ∧ 4999 < 5000) ∧ (¬ 5000 < 5000 ∧ 7499 < 7500) ∧
      (¬ 7500 < 7500 ∧ 12499 ≤ 12499) := by decide

theorem witness_host_indexes : ((0 < 8 ∧ 0 < 6) ∧ (5 < 8 ∧ 5 < 6) ∧ (6 < 8 ∧ ¬ 6 < 6) ∧ (7 < 8 ∧ ¬ 7 < 6)) ∧ (0 < 4 ∧ 3 < 4) := by
  decide

theorem witness_AcknowledgeSetsIdle : ∃ t, exec (.ackBtn 6#16) boot = .next t ∧ t.btn = 1#4 := ⟨_, rfl, rfl⟩

theorem witness_ReadBtnDoesNotConsume : StateInv { boot with btn := 8#4 } := ⟨by decide, by decide, by decide, by decide, rfl, rfl⟩

theorem witness_ReadHdReturnsTheCount :
    StateInv { boot with hd := 12499#14 } := ⟨by decide, by decide, by decide, by decide, rfl, rfl⟩

theorem witness_ClearHdClearsOnlyTheCount :
    (∃ t, exec (.clrHd 6#16) boot = .next t ∧ t.hd = 0#14) ∧ ({ boot with aDown := true }.aDown = true ∧ 0 ≤ 12499 ∧
      (4000 ≤ 4000 ∧ ¬ 4001 ≤ 4000) ∧ 12499 ≤ 12499) := ⟨⟨_, rfl, rfl⟩, by decide⟩

theorem witness_ReadsAreRepeatableAndWritesIdempotent :
    isHostRead (.rdVb 7) = true ∧ isHostRead .rdBtn = true ∧ isHostWrite (.wrVb 5 0xFFFF#16) = true ∧
      isHostWrite (.clrHd 1#16) = true ∧ 0 < 6 ∧ 5 < 6 := by decide

theorem witness_EachRegisterHasItsWriters :
    (∃ t, exec .tick boot = .next t) ∧ (∃ t, exec (.kpscan 0x0002#16) boot = .next t ∧ t.cchar = 0x32#8) ∧
      ∃ t, exec (.wrCchar 0x41#16) boot = .next t ∧ t.cchar = 0x41#8 := ⟨⟨_, rfl⟩, ⟨_, rfl, rfl⟩, _, rfl, rfl⟩

theorem witness_UnknownChainIsNeverShown :
    Instr.tick ∉ [Instr.wrVb 1 0x41#16, .kpscan 0x0002#16] ∧ (0 ≤ 34 ∧ 34 ≤ 34) := by decide

end Sys2Proof.Tests
end

section
/-! PROOF. The host's reads and writes of the register space (20_memory.md rule R55). -/

namespace Sys2Proof.Machine

/-! ## Repeating an access -/

/-- Recording a returned word moves no register. -/
@[simp] theorem regRead_hostRead (a b : RegAddr) (s : State) : regRead b (hostRead a s) = regRead b s := rfl

/-- A repeated read appends the same word again. -/
theorem hostRead_hostRead (a : RegAddr) (s : State) :
    hostRead a (hostRead a s) = { s with reads := s.reads ++ [regRead a s, regRead a s] } := by
  rw [hostRead, regRead_hostRead, hostRead_reads, List.append_assoc]
  rfl

/-- A write stores a value that depends on the data alone, so the second of two equal writes finds it stored. -/
theorem regWrite_regWrite (a : RegAddr) (v : Word) (s : State) : regWrite a v (regWrite a v s) = regWrite a v s := by
  by_cases hvb : a.toNat < 6
  · simp [regWrite, hvb]
  · simp only [regWrite, hvb, dite_false]
    split_ifs <;> rfl

/-! ## Every host access is an access of the register space -/

theorem exec_of_isHostRead {i : Instr} (h : isHostRead i = true) : ∃ a, ∀ s, exec i s = .next (hostRead a s) :=
  match i, h with
  | .rdVb idx, _ => ⟨vbAddr idx, fun _ => rfl⟩
  | .rdCursor, _ => ⟨0x8#4, fun _ => rfl⟩
  | .rdCchar, _ => ⟨0x9#4, fun _ => rfl⟩
  | .rdBtn, _ => ⟨0xA#4, fun _ => rfl⟩
  | .rdHd, _ => ⟨0xB#4, fun _ => rfl⟩
  | .rdRsvd lo, _ => ⟨rsvdAddr lo, fun _ => rfl⟩

theorem exec_of_isHostWrite {i : Instr} (h : isHostWrite i = true) : ∃ a v, ∀ s, exec i s = .next (regWrite a v s) :=
  match i, h with
  | .wrVb idx d, _ => ⟨vbAddr idx, d, fun _ => rfl⟩
  | .wrCursor d, _ => ⟨0x8#4, d, fun _ => rfl⟩
  | .wrCchar d, _ => ⟨0x9#4, d, fun _ => rfl⟩
  | .ackBtn d, _ => ⟨0xA#4, d, fun _ => rfl⟩
  | .clrHd d, _ => ⟨0xB#4, d, fun _ => rfl⟩
  | .wrRsvd lo d, _ => ⟨rsvdAddr lo, d, fun _ => rfl⟩

/-- Two operations in order, when each has a next state. -/
theorem runOps_pair {i j : Instr} {s t u : State} (hi : exec i s = .next t) (hj : exec j t = .next u) :
    runOps [i, j] s = .next u := by
  simp [runOps, hi, hj]

theorem hostRead_repeatable {i : Instr} (h : isHostRead i = true) (s : State) :
    ∃ w, exec i s = .next { s with reads := s.reads ++ [w] } ∧
      runOps [i, i] s = .next { s with reads := s.reads ++ [w, w] } := by
  obtain ⟨a, ha⟩ := exec_of_isHostRead h
  refine ⟨regRead a s, ha s, ?_⟩
  rw [← hostRead_hostRead]
  exact runOps_pair (ha s) (ha _)

theorem hostWrite_idempotent {i : Instr} (h : isHostWrite i = true) (s : State) :
    ∃ t, exec i s = .next t ∧ exec i t = .next t := by
  obtain ⟨a, v, hav⟩ := exec_of_isHostWrite h
  exact ⟨regWrite a v s, hav s, by rw [hav, regWrite_regWrite]⟩

/-! ## Each access in its register's own terms -/

theorem regRead_vbAddr {idx : Nat} (h : idx < 6) (s : State) : regRead (vbAddr idx) s = (s.vb[idx]).setWidth 16 := by
  have ha : (vbAddr idx).toNat = idx := vbAddr_toNat (by omega)
  simp [regRead, ha, h]

theorem regWrite_vbAddr {idx : Nat} (h : idx < 6) (v : Word) (s : State) :
    regWrite (vbAddr idx) v s = { s with vb := s.vb.set idx (v.setWidth 8) h } := by
  have ha : (vbAddr idx).toNat = idx := vbAddr_toNat (by omega)
  simp [regWrite, ha, h]

theorem exec_rdVb {idx : Nat} (h : idx < 6) (s : State) :
    exec (.rdVb idx) s = .next { s with reads := s.reads ++ [(s.vb[idx]).setWidth 16] } := by
  rw [← regRead_vbAddr h]; rfl

theorem exec_rdCursor (s : State) : exec .rdCursor s = .next { s with reads := s.reads ++ [s.cursor.setWidth 16] } := rfl
theorem exec_rdCchar (s : State) : exec .rdCchar s = .next { s with reads := s.reads ++ [s.cchar.setWidth 16] } := rfl
theorem exec_rdBtn (s : State) : exec .rdBtn s = .next { s with reads := s.reads ++ [s.btn.setWidth 16] } := rfl
theorem exec_rdHd (s : State) : exec .rdHd s = .next { s with reads := s.reads ++ [s.hd.setWidth 16] } := rfl

theorem exec_wrVb {idx : Nat} (h : idx < 6) (d : Word) (s : State) :
    exec (.wrVb idx d) s = .next { s with vb := s.vb.set idx (d.setWidth 8) h } := by
  rw [← regWrite_vbAddr h]; rfl

theorem exec_wrCursor (d : Word) (s : State) : exec (.wrCursor d) s = .next { s with cursor := d.setWidth 3 } := rfl
theorem exec_wrCchar (d : Word) (s : State) : exec (.wrCchar d) s = .next { s with cchar := d.setWidth 8 } := rfl
theorem exec_ackBtn (d : Word) (s : State) : exec (.ackBtn d) s = .next { s with btn := 1#4 } := rfl
theorem exec_clrHd (d : Word) (s : State) : exec (.clrHd d) s = .next { s with hd := 0#14 } := rfl

/-- Settles O54: every host access is a read or a write of the register space, where a read moves no register and a write
stores a value that depends on the data alone. -/
theorem readsAreRepeatableAndWritesIdempotent : Obligations.ReadsAreRepeatableAndWritesIdempotent :=
  ⟨fun _ s h => hostRead_repeatable h s,
    fun _ h s => exec_rdVb h s,
    fun s => ⟨exec_rdCursor s, exec_rdCchar s, exec_rdBtn s, exec_rdHd s⟩,
    fun _ s h => hostWrite_idempotent h s,
    fun _ h d s => exec_wrVb h d s,
    fun d s => ⟨exec_wrCursor d s, exec_wrCchar d s, exec_ackBtn d s, exec_clrHd d s⟩⟩

end Sys2Proof.Machine
end

section
/-! PROOF. The refused words and the opcode map (30_encoding.md rules R76 and R84): a word selects a row exactly when the
decoder accepts it as an operation of the row. -/

namespace Sys2Proof.OpcodeMap

open Sys2Proof.Machine

/-! ## The refused words -/

/-- The class codes whose words have address 0 (30_encoding.md rule R75). -/
def codesWithoutAddr : List (BitVec 3) := [0b000#3, 0b001#3, 0b010#3, 0b011#3, 0b111#3]

/-- The class codes whose words have data 0 (30_encoding.md rule R75). -/
def codesWithoutData : List (BitVec 3) := [0b000#3, 0b001#3, 0b011#3, 0b100#3, 0b111#3]

/-- The four cases in which a word spells no operation (30_encoding.md rule R76). -/
def SpellsNoOperation (w : Stimulus) : Prop :=
  clsField w = 0b110#3 ∨ zField w = 1#1 ∨
    (addrField w ≠ 0#4 ∧ clsField w ∈ codesWithoutAddr) ∨ (dataField w ≠ 0#16 ∧ clsField w ∈ codesWithoutData)

theorem bareOp_refuses_iff (i : Instr) (a : RegAddr) (d : Word) :
    (∃ r, bareOp i a d = .error r) ↔ a ≠ 0#4 ∨ d ≠ 0#16 := by
  unfold bareOp; split_ifs <;> simp_all

theorem scanOp_refuses_iff (a : RegAddr) (d : Word) : (∃ r, scanOp a d = .error r) ↔ a ≠ 0#4 := by
  unfold scanOp; split_ifs <;> simp_all

theorem hostReadOp_refuses_iff (a : RegAddr) (d : Word) : (∃ r, hostReadOp a d = .error r) ↔ d ≠ 0#16 := by
  unfold hostReadOp; split_ifs <;> simp_all

/-- A class refuses the address and the data it does not take. -/
theorem decodeClass_refuses_iff (c : OpClass) (a : RegAddr) (d : Word) :
    (∃ r, decodeClass c a d = .error r) ↔
      (a ≠ 0#4 ∧ classCode c ∈ codesWithoutAddr) ∨ (d ≠ 0#16 ∧ classCode c ∈ codesWithoutData) := by
  cases c <;>
    simp [decodeClass, classCode, codesWithoutAddr, codesWithoutData, bareOp_refuses_iff, scanOp_refuses_iff,
      hostReadOp_refuses_iff]

/-- A word whose class is assigned and whose z bit is 0 is decoded by its class. -/
theorem decode_of_classOf {w : Stimulus} {c : OpClass} (hc : classOf (clsField w) = some c) (hz : zField w = 0#1) :
    decode w = decodeClass c (addrField w) (dataField w) := by
  simp [decode, hc, hz]

theorem decode_refuses_iff (w : Stimulus) : (∃ r, decode w = .error r) ↔ SpellsNoOperation w := by
  unfold SpellsNoOperation
  cases hc : classOf (clsField w) with
  | none =>
    have hcls : clsField w = 0b110#3 := (classOf_eq_none_iff _).mp hc
    exact iff_of_true ⟨.unassignedClass, by simp [decode, hc]⟩ (.inl hcls)
  | some c =>
    have hcls : clsField w ≠ 0b110#3 := fun h => by simp [(classOf_eq_none_iff _).mpr h] at hc
    rcases BitVec.eq_zero_or_eq_one (zField w) with hz | hz
    · rw [decode_of_classOf hc hz, decodeClass_refuses_iff, classCode_of_classOf hc]
      simp [hcls, hz]
    · exact iff_of_true ⟨.zBitSet, by simp [decode, hc, hz]⟩ (.inr (.inl hz))

/-! ## An accepted word is the word of its operation -/

theorem vbAddr_vbIndex : ∀ {a : RegAddr}, a.getLsbD 3 = false → vbAddr (vbIndex a) = a := by decide

theorem rsvdAddr_rsvdIndex : ∀ {a : RegAddr}, ¬ a.getLsbD 3 = false → a ≠ 0x8#4 → a ≠ 0x9#4 → a ≠ 0xA#4 → a ≠ 0xB#4 →
    rsvdAddr (rsvdIndex a) = a := by decide

/-- The address and data of a read's word are those it was decoded from, and its index fits. -/
theorem encodeFields_readOp (a : RegAddr) : (readOp a).WellFormed ∧ encodeFields (readOp a) = (.hostrd, a, 0#16) := by
  revert a; decide

/-- The address and data of a write's word are those it was decoded from, and its index fits. -/
theorem encodeFields_writeOp (a : RegAddr) (d : Word) :
    (writeOp a d).WellFormed ∧ encodeFields (writeOp a d) = (.hostwr, a, d) := by
  unfold writeOp
  split_ifs with hvb h8 h9 hA hB
  · exact ⟨decide_eq_true (vbIndex_lt a), by rw [encodeFields, vbAddr_vbIndex hvb]⟩
  · exact ⟨rfl, by rw [h8]; rfl⟩
  · exact ⟨rfl, by rw [h9]; rfl⟩
  · exact ⟨rfl, by rw [hA]; rfl⟩
  · exact ⟨rfl, by rw [hB]; rfl⟩
  · exact ⟨decide_eq_true (rsvdIndex_lt a), by rw [encodeFields, rsvdAddr_rsvdIndex hvb h8 h9 hA hB]⟩

theorem bareOp_ok {i j : Instr} {a : RegAddr} {d : Word} (h : bareOp i a d = .ok j) : a = 0#4 ∧ d = 0#16 ∧ i = j := by
  unfold bareOp at h; split_ifs at h; simp_all

theorem scanOp_ok {j : Instr} {a : RegAddr} {d : Word} (h : scanOp a d = .ok j) : a = 0#4 ∧ .kpscan d = j := by
  unfold scanOp at h; split_ifs at h; simp_all

theorem hostReadOp_ok {j : Instr} {a : RegAddr} {d : Word} (h : hostReadOp a d = .ok j) : d = 0#16 ∧ readOp a = j := by
  unfold hostReadOp at h; split_ifs at h; simp_all

theorem encodeFields_of_decodeClass {c : OpClass} {a : RegAddr} {d : Word} {i : Instr} (h : decodeClass c a d = .ok i) :
    i.WellFormed ∧ encodeFields i = (c, a, d) := by
  cases c with
  | nop | tick | idleto | reset => obtain ⟨rfl, rfl, rfl⟩ := bareOp_ok h; exact ⟨rfl, rfl⟩
  | kpscan => obtain ⟨rfl, rfl⟩ := scanOp_ok h; exact ⟨rfl, rfl⟩
  | hostrd => obtain ⟨rfl, rfl⟩ := hostReadOp_ok h; exact encodeFields_readOp a
  | hostwr => cases h; exact encodeFields_writeOp a d

theorem encode_of_decode {w : Stimulus} {i : Instr} (h : decode w = .ok i) : i.WellFormed ∧ encode i = w := by
  obtain ⟨c, hc, hz, hi⟩ := decode_ok_cases h
  obtain ⟨hwf, hfields⟩ := encodeFields_of_decodeClass hi
  refine ⟨hwf, ?_⟩
  rw [encode, hfields, classCode_of_classOf hc, formatW_fields hz]

/-! ## Rows -/

/-- The word of an operation selects the row of its mnemonic. -/
theorem selects_encode (i : Instr) : Laws.EncodingMatchesRow.Statement i :=
  match i with
  | .nop => Laws.EncodingMatchesRow.nop
  | .tick => Laws.EncodingMatchesRow.tick
  | .kpscan m => Laws.EncodingMatchesRow.kpscan m
  | .idleto => Laws.EncodingMatchesRow.idleto
  | .rdVb idx => Laws.EncodingMatchesRow.rdVb idx
  | .rdCursor => Laws.EncodingMatchesRow.rdCursor
  | .rdCchar => Laws.EncodingMatchesRow.rdCchar
  | .rdBtn => Laws.EncodingMatchesRow.rdBtn
  | .rdHd => Laws.EncodingMatchesRow.rdHd
  | .rdRsvd lo => Laws.EncodingMatchesRow.rdRsvd lo
  | .wrVb idx d => Laws.EncodingMatchesRow.wrVb idx d
  | .wrCursor d => Laws.EncodingMatchesRow.wrCursor d
  | .wrCchar d => Laws.EncodingMatchesRow.wrCchar d
  | .ackBtn d => Laws.EncodingMatchesRow.ackBtn d
  | .clrHd d => Laws.EncodingMatchesRow.clrHd d
  | .wrRsvd lo d => Laws.EncodingMatchesRow.wrRsvd lo d
  | .reset => Laws.EncodingMatchesRow.reset

theorem exists_row_of_decode {w : Stimulus} {i : Instr} (h : decode w = .ok i) :
    ∃ r ∈ opcodeMap, r.mnemonic = i.mnemonic ∧ r.selects w := by
  obtain ⟨hwf, rfl⟩ := encode_of_decode h
  exact selects_encode i hwf

/-- Two rows agree on the bits both masks keep only if they are one row. -/
theorem row_eq_of_pattern_agree :
    ∀ r ∈ opcodeMap, ∀ r' ∈ opcodeMap, r.pattern &&& r'.mask = r'.pattern &&& r.mask → r = r' := by decide

theorem row_eq_of_mnemonic_eq : ∀ r ∈ opcodeMap, ∀ r' ∈ opcodeMap, r.mnemonic = r'.mnemonic → r = r' := by decide

theorem row_unique {r r' : OpcodeRow} (hr : r ∈ opcodeMap) (hr' : r' ∈ opcodeMap) {w : Stimulus} (h : r.selects w)
    (h' : r'.selects w) : r = r' := by
  refine row_eq_of_pattern_agree r hr r' hr' ?_
  calc r.pattern &&& r'.mask = (w &&& r.mask) &&& r'.mask := by rw [show w &&& r.mask = r.pattern from h]
    _ = (w &&& r'.mask) &&& r.mask := by rw [BitVec.and_assoc, BitVec.and_comm r.mask, ← BitVec.and_assoc]
    _ = r'.pattern &&& r.mask := by rw [show w &&& r'.mask = r'.pattern from h']

/-- A word that selects a row has in each field the row's bits where the row's mask keeps them. -/
theorem fields_of_selects {r : OpcodeRow} {w : Stimulus} (h : r.selects w) :
    clsField w &&& clsField r.mask = clsField r.pattern ∧ zField w &&& zField r.mask = zField r.pattern ∧
      addrField w &&& addrField r.mask = addrField r.pattern ∧
      dataField w &&& dataField r.mask = dataField r.pattern := by
  have h' : w &&& r.mask = r.pattern := h
  simp only [clsField, zField, addrField, dataField, ← BitVec.extractLsb'_and, h', and_self]

/-- Every row fixes the class, to one that is assigned, and the z bit, to 0. -/
theorem row_fixes_class : ∀ r ∈ opcodeMap, clsField r.mask = BitVec.allOnes 3 ∧ clsField r.pattern ≠ 0b110#3 ∧
    zField r.mask = 1#1 ∧ zField r.pattern = 0#1 := by decide

/-- A row of a class without address fixes the address to 0. -/
theorem row_fixes_addr : ∀ r ∈ opcodeMap, clsField r.pattern ∈ codesWithoutAddr →
    addrField r.mask = BitVec.allOnes 4 ∧ addrField r.pattern = 0#4 := by decide

/-- A row of a class without data fixes the data to 0. -/
theorem row_fixes_data : ∀ r ∈ opcodeMap, clsField r.pattern ∈ codesWithoutData →
    dataField r.mask = BitVec.allOnes 16 ∧ dataField r.pattern = 0#16 := by decide

theorem not_spellsNoOperation_of_selects {r : OpcodeRow} (hr : r ∈ opcodeMap) {w : Stimulus} (h : r.selects w) :
    ¬ SpellsNoOperation w := by
  obtain ⟨hcls, hz, haddr, hdata⟩ := fields_of_selects h
  obtain ⟨hclsMask, hclsPat, hzMask, hzPat⟩ := row_fixes_class r hr
  rw [hclsMask, BitVec.and_allOnes] at hcls
  rintro (h110 | hz1 | ⟨ha, hmem⟩ | ⟨hd, hmem⟩)
  · exact hclsPat (hcls ▸ h110)
  · rw [hz1, hzMask, hzPat] at hz; exact absurd hz (by decide)
  · obtain ⟨hm, hp⟩ := row_fixes_addr r hr (hcls ▸ hmem)
    rw [hm, hp, BitVec.and_allOnes] at haddr
    exact ha haddr
  · obtain ⟨hm, hp⟩ := row_fixes_data r hr (hcls ▸ hmem)
    rw [hm, hp, BitVec.and_allOnes] at hdata
    exact hd hdata

theorem not_selects_of_refused {w : Stimulus} {e : InvalidWord} (h : decode w = .error e) {r : OpcodeRow}
    (hr : r ∈ opcodeMap) : ¬ r.selects w :=
  fun hs => not_spellsNoOperation_of_selects hr hs ((decode_refuses_iff w).mp ⟨e, h⟩)

theorem selects_iff_decode {r : OpcodeRow} (hr : r ∈ opcodeMap) (w : Stimulus) :
    r.selects w ↔ ∃ i, decode w = .ok i ∧ i.mnemonic = r.mnemonic := by
  constructor
  · intro hs
    cases hd : decode w with
    | error e => exact absurd hs (not_selects_of_refused hd hr)
    | ok i =>
      obtain ⟨r', hr', hm, hs'⟩ := exists_row_of_decode hd
      exact ⟨i, rfl, by rw [← hm, row_unique hr hr' hs hs']⟩
  · rintro ⟨i, hd, hm⟩
    obtain ⟨r', hr', hm', hs'⟩ := exists_row_of_decode hd
    rwa [row_eq_of_mnemonic_eq r hr r' hr' (hm.symm.trans hm'.symm)]

/-! ## The free fields of a row are the operands -/

/-- The data operand is added to the word with data 0. -/
theorem formatW_add_data (c : BitVec 3) (a : RegAddr) (d : Word) : formatW c a 0#16 + d.setWidth 24 = formatW c a d := by
  apply BitVec.eq_of_toNat_eq
  have := c.isLt; have := a.isLt; have := d.isLt
  rw [BitVec.toNat_add, formatW_toNat, formatW_toNat, BitVec.toNat_setWidth]
  simp only [BitVec.toNat_ofNat]
  omega

theorem decode_add_data (c : OpClass) (a : RegAddr) (d : Word) :
    decode (formatW (classCode c) a 0#16 + d.setWidth 24) = decodeClass c a d := by
  rw [formatW_add_data, decode_formatW]

/-! An index operand is added, in the address field, to the word of index 0. -/

theorem add_vbIndex_hostrd {idx : Nat} (h : idx < 8) :
    0x800000#24 + BitVec.ofNat 24 (idx * 0x10000) = formatW (classCode .hostrd) (vbAddr idx) 0#16 := by
  interval_cases idx <;> decide

theorem add_vbIndex_hostwr {idx : Nat} (h : idx < 8) :
    0xA00000#24 + BitVec.ofNat 24 (idx * 0x10000) = formatW (classCode .hostwr) (vbAddr idx) 0#16 := by
  interval_cases idx <;> decide

theorem add_rsvdIndex_hostrd {lo : Nat} (h : lo < 4) :
    0x8C0000#24 + BitVec.ofNat 24 (lo * 0x10000) = formatW (classCode .hostrd) (rsvdAddr lo) 0#16 := by
  interval_cases lo <;> decide

theorem add_rsvdIndex_hostwr {lo : Nat} (h : lo < 4) :
    0xAC0000#24 + BitVec.ofNat 24 (lo * 0x10000) = formatW (classCode .hostwr) (rsvdAddr lo) 0#16 := by
  interval_cases lo <;> decide

theorem decode_rdVb {idx : Nat} (h : idx < 8) :
    decode (0x800000#24 + BitVec.ofNat 24 (idx * 0x10000)) = .ok (.rdVb idx) := by
  rw [add_vbIndex_hostrd h, decode_formatW, ← readOp_vbAddr h]; rfl

theorem decode_wrVb {idx : Nat} (h : idx < 8) (d : Word) :
    decode (0xA00000#24 + BitVec.ofNat 24 (idx * 0x10000) + d.setWidth 24) = .ok (.wrVb idx d) := by
  rw [add_vbIndex_hostwr h, decode_add_data, ← writeOp_vbAddr h]; rfl

theorem decode_rdRsvd {lo : Nat} (h : lo < 4) :
    decode (0x8C0000#24 + BitVec.ofNat 24 (lo * 0x10000)) = .ok (.rdRsvd lo) := by
  rw [add_rsvdIndex_hostrd h, decode_formatW, ← readOp_rsvdAddr h]; rfl

theorem decode_wrRsvd {lo : Nat} (h : lo < 4) (d : Word) :
    decode (0xAC0000#24 + BitVec.ofNat 24 (lo * 0x10000) + d.setWidth 24) = .ok (.wrRsvd lo d) := by
  rw [add_rsvdIndex_hostwr h, decode_add_data, ← writeOp_rsvdAddr h]; rfl

theorem decode_kpscan (m : SampleMap) : decode (0x400000#24 + m.setWidth 24) = .ok (.kpscan m) :=
  decode_add_data .kpscan 0#4 m

theorem decode_wrCursor (d : Word) : decode (0xA80000#24 + d.setWidth 24) = .ok (.wrCursor d) :=
  decode_add_data .hostwr 0x8#4 d

theorem decode_wrCchar (d : Word) : decode (0xA90000#24 + d.setWidth 24) = .ok (.wrCchar d) :=
  decode_add_data .hostwr 0x9#4 d

theorem decode_ackBtn (d : Word) : decode (0xAA0000#24 + d.setWidth 24) = .ok (.ackBtn d) :=
  decode_add_data .hostwr 0xA#4 d

theorem decode_clrHd (d : Word) : decode (0xAB0000#24 + d.setWidth 24) = .ok (.clrHd d) :=
  decode_add_data .hostwr 0xB#4 d

/-! ## Reserved addresses, and the step of a refused word -/

/-- The addresses that hold no register: 6, 7 and C to F (20_memory.md rule R56). -/
def Reserved (a : RegAddr) : Prop := a.toNat = 6 ∨ a.toNat = 7 ∨ 12 ≤ a.toNat

theorem reserved_vbAddr {idx : Nat} (h : idx = 6 ∨ idx = 7) : Reserved (vbAddr idx) := by
  rw [Reserved, vbAddr_toNat (by omega)]; omega

theorem reserved_rsvdAddr {lo : Nat} (h : lo < 4) : Reserved (rsvdAddr lo) := by
  rw [Reserved, rsvdAddr_toNat h]; omega

/-- A reserved address is no address of a register. -/
theorem Reserved.ne_register {a : RegAddr} (h : Reserved a) :
    ¬ a.toNat < 6 ∧ a ≠ 0x8#4 ∧ a ≠ 0x9#4 ∧ a ≠ 0xA#4 ∧ a ≠ 0xB#4 := by
  unfold Reserved at h
  refine ⟨by omega, ?_, ?_, ?_, ?_⟩ <;> rintro rfl <;> simp at h

theorem regRead_reserved {a : RegAddr} (h : Reserved a) (s : State) : regRead a s = 0#16 := by
  obtain ⟨hvb, h8, h9, hA, hB⟩ := h.ne_register
  simp [regRead, hvb, h8, h9, hA, hB]

theorem regWrite_reserved {a : RegAddr} (h : Reserved a) (d : Word) (s : State) : regWrite a d s = s := by
  obtain ⟨hvb, h8, h9, hA, hB⟩ := h.ne_register
  simp [regWrite, hvb, h8, h9, hA, hB]

theorem hostRead_reserved {a : RegAddr} (h : Reserved a) (s : State) :
    hostRead a s = { s with reads := s.reads ++ [0#16] } := by
  rw [hostRead, regRead_reserved h]

theorem exec_rdVb_reserved {idx : Nat} (h : idx = 6 ∨ idx = 7) (s : State) :
    exec (.rdVb idx) s = .next { s with reads := s.reads ++ [0#16] } :=
  congrArg _ (hostRead_reserved (reserved_vbAddr h) s)

theorem exec_wrVb_reserved {idx : Nat} (h : idx = 6 ∨ idx = 7) (d : Word) (s : State) :
    exec (.wrVb idx d) s = .next s :=
  congrArg _ (regWrite_reserved (reserved_vbAddr h) d s)

theorem exec_rdRsvd {lo : Nat} (h : lo < 4) (s : State) :
    exec (.rdRsvd lo) s = .next { s with reads := s.reads ++ [0#16] } :=
  congrArg _ (hostRead_reserved (reserved_rsvdAddr h) s)

theorem exec_wrRsvd {lo : Nat} (h : lo < 4) (d : Word) (s : State) : exec (.wrRsvd lo d) s = .next s :=
  congrArg _ (regWrite_reserved (reserved_rsvdAddr h) d s)

theorem step_of_refused {w : Stimulus} {e : InvalidWord} {s : State} {rest : List Stimulus} (hs : s.stimuli = w :: rest)
    (hd : decode w = .error e) : step s = .refused (.noOperation e) := by
  have hf : fetch s = some (w, { s with stimuli := rest }) := by simp [fetch, hs]
  simp [step, hf, hd]

/-! ## The two statements -/

/-- Settles O4: a word that selects a row meets none of R76's four cases, since the row fixes the class, the z bit and the
fields its class does not take; an accepted word is the word of its operation, which selects its own row. -/
theorem refusedWordsAreExactlyTheInvalidOnes : Obligations.RefusedWordsAreExactlyTheInvalidOnes := by
  refine ⟨decode_refuses_iff, fun w i h => ?_, fun _ _ h _ hr => not_selects_of_refused h hr,
    fun _ _ _ _ => step_of_refused, fun idx d s h => ?_, fun lo d s h => ?_⟩
  · obtain ⟨r, hr, -, hs⟩ := exists_row_of_decode h
    exact ⟨r, hr, hs, fun r' hr' hs' => row_unique hr' hr hs' hs⟩
  · have h8 : idx < 8 := by omega
    exact ⟨decode_rdVb h8, decode_wrVb h8 d, exec_rdVb_reserved h s, exec_wrVb_reserved h d s⟩
  · exact ⟨decode_rdRsvd h, decode_wrRsvd h d, exec_rdRsvd h s, exec_wrRsvd h d s⟩

/-- Settles O5: two rows that one word selects agree on the bits both keep; a selected word is accepted, and its operation's
own row is the selected one. -/
theorem opcodeMapIsTheDecoder : Obligations.OpcodeMapIsTheDecoder :=
  ⟨rfl, fun _ hr _ hr' _ => row_unique hr hr', fun w _ hr => selects_iff_decode hr w, decode_kpscan,
    fun _ => decode_rdVb, fun _ => decode_rdRsvd, fun _ d h => decode_wrVb h d, decode_wrCursor, decode_wrCchar,
    decode_ackBtn, decode_clrHd, fun _ d h => decode_wrRsvd h d⟩

end Sys2Proof.OpcodeMap
end

section
/-! PROOF. The display multiplexer's slot, digit lines and pattern lookup (40_display_mux.md rules R100, R105 and R106). -/

namespace Sys2Proof.Machine

/-! ## The pattern lookup -/

theorem patternFor_of_not_supported {c : CharCode} (h : ¬ supported c = true) : patternFor c = 0x0000#16 :=
  if_neg fun hc => h hc.1

theorem patternFor_space : patternFor 0x20#8 = 0x0000#16 := if_neg fun hc => hc.2 rfl

theorem patternFor_of_supported {c : CharCode} (h : supported c = true) (hc : c ≠ 0x20#8) :
    patternFor c = Config.segTable c := if_pos ⟨h, hc⟩

/-- Settles O20: the codes named are the supported ones, and the lookup asks only for that and for the space. -/
theorem patternLookupContract : Obligations.PatternLookupContract := by
  intro c inSet
  have hset : supported c = true ↔ inSet := supported_iff c
  refine ⟨fun hout => ?_, ?_, fun hin hc => ?_⟩
  · exact patternFor_of_not_supported (hset.not.mpr hout)
  · rintro rfl
    exact patternFor_space
  · exact patternFor_of_supported (hset.mpr hin) hc

/-! ## The digit lines -/

theorem getLsbD_digN_digOff (p : Pins) (i j : Slot) :
    (pinsAfter (.digOff i) p).digN.getLsbD j.val = if j = i then true else p.digN.getLsbD j.val := by
  rw [pinsAfter_digOff_digN, BitVec.getLsbD_or, digitMask_getLsbD]
  by_cases h : j = i <;> simp [h]

theorem getLsbD_digN_digOn (p : Pins) (i j : Slot) :
    (pinsAfter (.digOn i) p).digN.getLsbD j.val = if j = i then false else p.digN.getLsbD j.val := by
  rw [pinsAfter_digOn_digN, BitVec.getLsbD_and, BitVec.getLsbD_not, digitMask_getLsbD]
  by_cases h : j = i <;> simp [h]

theorem getLsbD_resetPins_digN : ∀ j : Slot, resetPins.digN.getLsbD j.val = true := by decide

/-! ## The events of an operation -/

theorem eventsSince_of_append {s t : State} {es : List PinEvent} (h : t.pinTrace = s.pinTrace ++ es) :
    eventsSince s t = es := by
  rw [eventsSince, h, List.drop_left]

/-- An event of the key matrix enables no digit. -/
theorem digOns_of_row_events {es : List PinEvent} (h : ∀ e ∈ es, isRowEvent e = true) : digOns es = [] := by
  refine List.filterMap_eq_nil_iff.mpr fun e he => ?_
  have hrow := h e he
  cases e with
  | digOn i => cases hrow
  | _ => rfl

theorem isRowEvent_of_mem_scanEvents (m : SampleMap) : ∀ e ∈ scanEvents m, isRowEvent e = true :=
  List.all_eq_true.mp rfl

/-- A scan parks the rows and adds its nine events to the trace, and changes nothing else. -/
theorem traceAll_scanEvents (m : SampleMap) (s : State) :
    traceAll (scanEvents m) s =
      { s with pins := { s.pins with rowN := 0b0000#4 }, pinTrace := s.pinTrace ++ scanEvents m } := by
  rw [traceAll_eq, boardAfter_scanEvents]

/-! ## What operations other than TICK and RESET leave of the display -/

/-- `t` has the slot and the digit lines of `s`, and no event beyond those of `s` but events of the key matrix. -/
structure LeavesDisplay (s t : State) : Prop where
  activeSlot : t.activeSlot = s.activeSlot
  digN : t.pins.digN = s.pins.digN
  rowEvents : ∃ es, (∀ e ∈ es, isRowEvent e = true) ∧ t.pinTrace = s.pinTrace ++ es

/-- An update that touches neither the slot nor the pins nor the trace leaves the display. -/
theorem LeavesDisplay.of_eq {s t : State} (hslot : t.activeSlot = s.activeSlot) (hpins : t.pins = s.pins)
    (htrace : t.pinTrace = s.pinTrace) : LeavesDisplay s t :=
  ⟨hslot, congrArg Pins.digN hpins, [], by simp, by simp [htrace]⟩

theorem LeavesDisplay.digOns_eq_nil {s t : State} (h : LeavesDisplay s t) : digOns (eventsSince s t) = [] := by
  obtain ⟨es, hrow, htrace⟩ := h.rowEvents
  rw [eventsSince_of_append htrace]
  exact digOns_of_row_events hrow

theorem hostRead_leavesDisplay (a : RegAddr) (s : State) : LeavesDisplay s (hostRead a s) := .of_eq rfl rfl rfl

theorem regWrite_leavesDisplay (a : RegAddr) (v : Word) (s : State) : LeavesDisplay s (regWrite a v s) := by
  rw [regWrite_frame]
  exact .of_eq rfl rfl rfl

theorem kpscan_leavesDisplay {m : SampleMap} {s t : State} (h : exec (.kpscan m) s = .next t) : LeavesDisplay s t := by
  simp only [exec, execKpscan, traceAll_scanEvents] at h
  cases h
  exact ⟨rfl, rfl, scanEvents m, isRowEvent_of_mem_scanEvents m, rfl⟩

/-- No operation but TICK and RESET moves the slot or a digit line: a host access goes through the register space, which
holds neither, and a scan drives rows only. -/
theorem exec_leavesDisplay {i : Instr} {s t : State} (h : exec i s = .next t) (htick : i ≠ .tick) (hreset : i ≠ .reset) :
    LeavesDisplay s t := by
  have of_read (hi : isHostRead i = true) : LeavesDisplay s t := by
    obtain ⟨a, ha⟩ := exec_of_isHostRead hi
    cases (ha s).symm.trans h
    exact hostRead_leavesDisplay a s
  have of_write (hi : isHostWrite i = true) : LeavesDisplay s t := by
    obtain ⟨a, v, hav⟩ := exec_of_isHostWrite hi
    cases (hav s).symm.trans h
    exact regWrite_leavesDisplay a v s
  cases i with
  | tick => exact absurd rfl htick
  | reset => exact absurd rfl hreset
  | nop => cases h; exact .of_eq rfl rfl rfl
  | idleto => cases h; exact .of_eq rfl rfl rfl
  | kpscan m => exact kpscan_leavesDisplay h
  | rdVb | rdCursor | rdCchar | rdBtn | rdHd | rdRsvd => exact of_read rfl
  | wrVb | wrCursor | wrCchar | ackBtn | clrHd | wrRsvd => exact of_write rfl

/-! ## The slot -/

theorem nextSlot_val (i : Slot) : (nextSlot i).val = if i.val < 5 then i.val + 1 else 0 := by
  by_cases h : i.val < 5 <;> simp [nextSlot, h]

theorem exec_tick_activeSlot (s : State) : ∃ t, exec .tick s = .next t ∧ t.activeSlot = nextSlot s.activeSlot :=
  ⟨_, rfl, rfl⟩

theorem exec_reset (s : State) : exec .reset s = .next (trace .pinsReset (resetRegisters s)) := rfl

/-- Settles O16: TICK stores the next slot, RESET slot 0, and every other operation leaves the display. -/
theorem onlyTickAndResetMoveTheSlot : Obligations.OnlyTickAndResetMoveTheSlot := by
  refine ⟨fun s => ?_, fun s => ⟨_, exec_reset s, rfl⟩, fun i s t h htick hreset => ?_⟩
  · obtain ⟨t, ht, hslot⟩ := exec_tick_activeSlot s
    exact ⟨t, ht, by rw [hslot, nextSlot_val]⟩
  · exact (exec_leavesDisplay h htick hreset).activeSlot

/-! ## The digit lines over an operation -/

/-- RESET adds no DigOn and raises every digit line. -/
theorem reset_digits {s t : State} (h : exec .reset s = .next t) :
    digOns (eventsSince s t) = [] ∧ ∀ j : Slot, t.pins.digN.getLsbD j.val = true := by
  cases (exec_reset s).symm.trans h
  have hev : eventsSince s (trace .pinsReset (resetRegisters s)) = [.pinsReset] := eventsSince_of_append (by simp)
  exact ⟨by rw [hev]; rfl, getLsbD_resetPins_digN⟩

/-- Settles O18: the mask of a digit line has that line's bit alone; RESET raises all lines, and every other operation but
TICK leaves them. -/
theorem digitLinesMoveAlone : Obligations.DigitLinesMoveAlone := by
  refine ⟨fun s i j => getLsbD_digN_digOff s.pins i j, fun s i j => getLsbD_digN_digOn s.pins i j,
    fun i s t h htick => ?_⟩
  by_cases hreset : i = .reset
  · subst hreset
    obtain ⟨hno, hhigh⟩ := reset_digits h
    exact ⟨hno, fun j _ => hhigh j⟩
  · have hkeep := exec_leavesDisplay h htick hreset
    exact ⟨hkeep.digOns_eq_nil, fun j hj => by rw [hkeep.digN]; exact hj⟩

end Sys2Proof.Machine
end

section
/-! PROOF. The keypad decoder's scan pass, its count, key 1 and the idle timeout (41_keypad_decoder.md rules R121, R128, R133
and R136). -/

namespace Sys2Proof.Machine

/-! ## KPSCAN and IDLETO as updates of the state -/

/-- KPSCAN: the three pending writes of the decode and key A's sample are committed, the rows are parked, the scan's events
join the trace, and nothing else changes. Key A is at position 3 (log 6). -/
theorem exec_kpscan (m : SampleMap) (s : State) :
    exec (.kpscan m) s = .next { s with
      hd := (decodeKeys m s.aDown (advanceHd m s.hd)).hd
      cchar := (decodeKeys m s.aDown (advanceHd m s.hd)).cand.getD s.cchar
      btn := ((decodeKeys m s.aDown (advanceHd m s.hd)).evt.map eventCode).getD s.btn
      aDown := m.getLsbD 3
      pins := { s.pins with rowN := 0b0000#4 }
      pinTrace := s.pinTrace ++ scanEvents m } := by
  simp only [exec, execKpscan, latchedMap_eq, traceAll_scanEvents, keyPos_a]
  rfl

theorem exec_idleto (s : State) : exec .idleto s = .next { s with hd := 0#14 } := rfl

/-! ## The scan pass -/

/-- When the columns of a row are sampled, that row line alone is low. -/
theorem rowN_at_sample (m : SampleMap) (r : Fin 4) (p : Pins) (c : Chain) :
    (boardAfter ((scanEvents m).take (2 * r.val + 1)) p c).1.rowN = ~~~(rowMask r) := by
  match r with
  | 0 | 1 | 2 | 3 => rfl

/-- Settles O26: the four samples are the nibbles the map is latched from, and each is taken right after its own row is
driven. -/
theorem scanDrivesOneRowAtATime : Obligations.ScanDrivesOneRowAtATime := by
  intro m s
  refine ⟨_, sampleRow m 0, sampleRow m 1, sampleRow m 2, sampleRow m 3, exec_kpscan m s, ?_⟩
  rw [eventsSince_of_append (es := scanEvents m) rfl]
  exact ⟨rfl, (latchedMap_eq m).symm, rowN_at_sample m 0 s.pins s.chain, rowN_at_sample m 1 s.pins s.chain,
    rowN_at_sample m 2 s.pins s.chain, rowN_at_sample m 3 s.pins s.chain, rfl⟩

/-! ## Keys and their masks -/

/-- No two positions bear one label (30_encoding.md rule R80). -/
theorem keymap_injective : Function.Injective keymap := by decide

theorem keymap_keyPos (l : KeyLabel) : keymap (keyPos l) = l := by
  cases l with
  | digit d => revert d; decide
  | a | b | c | d | star | hash => decide

theorem keymap_eq_iff (k : KeyPos) (l : KeyLabel) : keymap k = l ↔ k = keyPos l :=
  ⟨fun h => keymap_injective (h.trans (keymap_keyPos l).symm), fun h => h ▸ keymap_keyPos l⟩

/-- A map meets a key's mask exactly when the key is active (30_encoding.md rule R83). -/
theorem and_keyMask_ne_zero_iff (m : SampleMap) (l : KeyLabel) :
    m &&& keyMask l ≠ 0#16 ↔ m.getLsbD (keyPos l).val = true := by
  have hmask : keyMask l = BitVec.twoPow 16 (keyPos l).val := rfl
  have hne : BitVec.twoPow 16 (keyPos l).val ≠ 0#16 := by
    generalize keyPos l = k
    revert k; decide
  rw [hmask, BitVec.and_twoPow]
  cases m.getLsbD (keyPos l).val <;> simp [hne]

theorem digitActive_of_digit {m : SampleMap} {k : KeyPos} {d : Fin 10} (hk : keymap k = .digit d)
    (hm : m.getLsbD k.val = true) : digitActive m k = true := by
  simp [digitActive, hk, hm]

/-! ## The count -/

/-- The count a scan commits is the compare value, or 0 where key 0 is at its third stage. -/
theorem decodeKeys_hd_toNat (m : SampleMap) (aDown : Bool) {hd : BitVec 14} (h : hd.toNat ≤ 12499) :
    (decodeKeys m aDown (advanceHd m hd)).hd.toNat =
      if m &&& keyMask (.digit 0) ≠ 0#16 ∧ 5000 ≤ heldCount m hd then 0 else heldCount m hd := by
  have hzero : m &&& keyMask (.digit 0) ≠ 0#16 ↔ m.getLsbD 13 = true := and_keyMask_ne_zero_iff m (.digit 0)
  obtain ⟨-, -, hspec⟩ := decodeKeys_spec m aDown (advanceHd m hd)
  simp only [hspec, hzero, ← advanceHd_toNat m h]
  split_ifs <;> rfl

/-- Settles O27: the committed count is the compare value unless key 0 clears it; no key active means key 0 is not, and at
the wrap the compare value is 0 already. -/
theorem scanCommitsTheCount : Obligations.ScanCommitsTheCount := by
  intro m s hs
  refine ⟨_, exec_kpscan m s, (decodeKeys_hd_toNat m s.aDown hs).trans ?_⟩
  by_cases hm : m = 0#16
  · simp [hm, heldCount]
  · by_cases hwrap : s.hd.toNat + 1 = 12500 <;> simp [hm, hwrap, heldCount]

/-! ## A scan with one digit key active -/

/-- The only active digit key, if it is not key 0, selects its character, and the count is the compare value. -/
theorem decodeKeys_of_only_digit {m : SampleMap} {d : Fin 10} (hd : d ≠ 0) (hm : m &&& keyMask (.digit d) ≠ 0#16)
    (honly : ∀ k : KeyPos, digitActive m k = true → keymap k = .digit d) (aDown : Bool) (h : BitVec 14) :
    (decodeKeys m aDown h).cand = some (tapChar d h) ∧ (decodeKeys m aDown h).hd = h := by
  obtain ⟨hcand, -, hcount⟩ := decodeKeys_spec m aDown h
  have hactive : m.getLsbD (keyPos (.digit d)).val = true := (and_keyMask_ne_zero_iff m _).mp hm
  have hsets : candAt m h (keyPos (.digit d)) = some (tapChar d h) := by
    simp [candAt, hactive, keymap_keyPos, hd]
  have hothers : ∀ k, keyPos (.digit d) < k → candAt m h k = none := fun k hk =>
    (candAt_eq_none m h k).mpr <| Bool.eq_false_iff.mpr fun hk' => hk.ne' ((keymap_eq_iff k _).mp (honly k hk'))
  have hzero : ¬ m.getLsbD 13 = true := fun h13 => by
    have h0 : keymap 13 = .digit 0 := by decide
    have hd0 : KeyLabel.digit 0 = .digit d := h0.symm.trans (honly 13 (digitActive_of_digit h0 h13))
    exact hd (KeyLabel.digit.inj hd0).symm
  exact ⟨hcand.trans (findSome?_highest _ hsets hothers), by rw [hcount, if_neg fun hc => hzero hc.1]⟩

/-- The scan of the only active digit key, if it is not key 0: its character and the compare value are committed. -/
theorem exec_kpscan_of_only_digit {m : SampleMap} {d : Fin 10} (hd : d ≠ 0) (hm : m &&& keyMask (.digit d) ≠ 0#16)
    (honly : ∀ k : KeyPos, digitActive m k = true → keymap k = .digit d) (s : State) :
    ∃ t, exec (.kpscan m) s = .next t ∧ t.cchar = tapChar d (advanceHd m s.hd) ∧ t.hd = advanceHd m s.hd := by
  obtain ⟨hcand, hcount⟩ := decodeKeys_of_only_digit hd hm honly s.aDown (advanceHd m s.hd)
  exact ⟨_, exec_kpscan m s, by simp [hcand], hcount⟩

/-! ## Key 1 -/

/-- Key 1's list has one entry, so every stage is that entry. -/
theorem tapChar_one (h : BitVec 14) : tapChar 1 h = 0x31#8 := by
  simp [tapChar, charList, stage]

theorem decodeKey_one {m : SampleMap} {k : KeyPos} (hk : keymap k = .digit 1) (hm : m.getLsbD k.val = true)
    (aDown : Bool) (h : BitVec 14) (p : Pending) : (decodeKey m aDown h p k).cand = some 0x31#8 := by
  obtain ⟨hcand, -, -⟩ := decodeKey_spec m aDown h p k
  simp [hcand, candAt, hm, hk, tapChar_one]

/-- Settles O32: key 1's character is the same at every compare value, and only key 0 keeps the compare value from being
committed. -/
theorem keyOneAlwaysYieldsOne : Obligations.KeyOneAlwaysYieldsOne := by
  refine ⟨fun m aDown h p k hk hm => decodeKey_one hk hm aDown h p, fun m s hs hm honly => ?_⟩
  obtain ⟨t, ht, hchar, hcount⟩ := exec_kpscan_of_only_digit (by decide) hm honly s
  have hm0 : m ≠ 0#16 := by rintro rfl; simp at hm
  refine ⟨t, ht, hchar.trans (tapChar_one _), ?_⟩
  rw [hcount, advanceHd_toNat m hs, heldCount, if_neg hm0]

/-! ## The idle timeout -/

/-- Settles O40: IDLETO stores 0 in HD, and key 2 scanned from a count of 0 is at its first stage. -/
theorem idleTimeoutClearsTheCount : Obligations.IdleTimeoutClearsTheCount := by
  refine ⟨by decide, exec_idleto, fun s => ?_⟩
  obtain ⟨t, ht, hchar, hcount⟩ :=
    exec_kpscan_of_only_digit (m := keyMask (.digit 2)) (d := 2) (by decide) (by decide) (by decide) { s with hd := 0#14 }
  have hone : advanceHd (keyMask (.digit 2)) 0#14 = 1#14 := by decide
  have hfirst : tapChar 2 1#14 = 0x32#8 := by decide
  exact ⟨t, runOps_pair (exec_idleto s) ht, hcount.trans hone, by rw [hchar, hone, hfirst]⟩

end Sys2Proof.Machine
end

section
/-! PROOF. What the host port's operations see of the keypad decoder: runs of scans of one map, the scan with no key active,
and the press of D (41_keypad_decoder.md rules R123, R129 and R130). -/

namespace Sys2Proof.HostPort

open Sys2Proof.Machine

/-! ## Runs -/

theorem runOps_cons {i : Instr} {s t : State} (h : exec i s = .next t) (is : List Instr) :
    runOps (i :: is) s = runOps is t := by
  simp [runOps, h]

theorem runOps_concat {is : List Instr} {i : Instr} {s t u : State} (his : runOps is s = .next t)
    (hi : exec i t = .next u) : runOps (is ++ [i]) s = .next u := by
  rw [runOps_append is [i] s t his, runOps_cons hi]
  rfl

/-! ## Scans of one map -/

/-- Below the last count, a scan with a key but not key 0 active counts one up. -/
theorem exec_kpscan_counts {m : SampleMap} (hm : m ≠ 0#16) (hzero : m &&& keyMask (.digit 0) = 0#16) {s : State}
    (h : s.hd.toNat < 12499) :
    ∃ t, exec (.kpscan m) s = .next t ∧ t.hd.toNat = s.hd.toNat + 1 ∧ t.aDown = m.getLsbD 3 ∧ t.reads = s.reads := by
  have hceil : s.hd.toNat + 1 ≠ 12500 := by omega
  refine ⟨_, exec_kpscan m s, ?_, rfl, rfl⟩
  rw [decodeKeys_hd_toNat m s.aDown (by omega), if_neg fun hc => hc.1 hzero, heldCount, if_neg hm, if_neg hceil]

/-- `n` scans of one map with a key but not key 0 active, below the ceiling: the count goes up by `n`, aDown is key A of the
map once it has been scanned, and no word is read. -/
theorem runOps_scans {m : SampleMap} (hm : m ≠ 0#16) (hzero : m &&& keyMask (.digit 0) = 0#16) (n : Nat) (s : State)
    (h : s.hd.toNat + n ≤ 12499) :
    ∃ t, runOps (List.replicate n (.kpscan m)) s = .next t ∧ t.hd.toNat = s.hd.toNat + n ∧
      t.aDown = (if n = 0 then s.aDown else m.getLsbD 3) ∧ t.reads = s.reads := by
  induction n generalizing s with
  | zero => exact ⟨s, rfl, rfl, rfl, rfl⟩
  | succ n ih =>
    obtain ⟨t, ht, hcount, hdown, hreads⟩ := exec_kpscan_counts hm hzero (s := s) (by omega)
    obtain ⟨u, hu, hcount', hdown', hreads'⟩ := ih t (by omega)
    refine ⟨u, (runOps_cons ht _).trans hu, by omega, ?_, hreads'.trans hreads⟩
    rw [hdown', hdown, ite_self, if_neg n.succ_ne_zero]

/-! ## The scan with no key active -/

/-- With no key active only key A's position has an event, its release. -/
theorem eventAt_no_key (aDown : Bool) (h : Nat) (k : KeyPos) :
    eventAt 0#16 aDown h k =
      if k = 3 ∧ aDown = true then some (if h ≤ 4000 then .keyA else .keyALongPress) else none := by
  have hk : keymap k = .a ↔ k = 3 := by rw [keymap_eq_iff, keyPos_a]
  simp only [← hk, eventAt]
  cases keymap k <;> simp

theorem decodeKeys_no_key_evt (aDown : Bool) (h : BitVec 14) :
    (decodeKeys 0#16 aDown h).evt =
      if aDown = true then some (if h.toNat ≤ 4000 then .keyA else .keyALongPress) else none := by
  obtain ⟨-, hevt, -⟩ := decodeKeys_spec 0#16 aDown h
  rw [hevt]
  cases aDown with
  | false => exact List.findSome?_eq_none_iff.mpr fun k _ => by simp [eventAt_no_key]
  | true =>
    refine findSome?_highest (k := 3) _ (by simp [eventAt_no_key]) fun k hk => ?_
    simp [eventAt_no_key, hk.ne']

/-- A scan with no key active publishes key A's release, by the count as it stands, if key A was down, and else keeps BTN. -/
theorem exec_kpscan_no_key (s : State) :
    ∃ t, exec (.kpscan 0#16) s = .next t ∧ t.reads = s.reads ∧
      t.btn = if s.aDown = true then (if s.hd.toNat ≤ 4000 then 2#4 else 3#4) else s.btn := by
  refine ⟨_, exec_kpscan 0#16 s, rfl, ?_⟩
  have hcount : advanceHd 0#16 s.hd = s.hd := rfl
  simp only [hcount, decodeKeys_no_key_evt]
  split_ifs <;> rfl

/-! ## The press of D -/

/-- A scan of D alone publishes D even where it is key A's release, as D's position is the highest. -/
theorem exec_kpscan_keyD (s : State) :
    ∃ t, exec (.kpscan (keyMask .d)) s = .next t ∧ t.btn = 6#4 ∧ t.aDown = false ∧ t.reads = s.reads := by
  obtain ⟨-, hevt, -⟩ := decodeKeys_spec (keyMask .d) s.aDown (advanceHd (keyMask .d) s.hd)
  have hD : (decodeKeys (keyMask .d) s.aDown (advanceHd (keyMask .d) s.hd)).evt = some .keyD :=
    hevt.trans (findSome?_highest (k := 15) _ rfl fun k hk => absurd hk (Fin.le_last k).not_gt)
  have hup : (keyMask .d).getLsbD 3 = false := by decide
  refine ⟨_, exec_kpscan (keyMask .d) s, ?_, hup, rfl⟩
  simp only [hD]
  rfl

end Sys2Proof.HostPort
end

section
/-! PROOF. The host port's operations (42_host_port.md rules R151 to R163). -/

namespace Sys2Proof.HostPort

open Sys2Proof.Machine Sys2Proof.OpcodeMap

/-! ## Reads -/

/-- Settles O41: below 6 the address is a slot's, and 6 and 7 are reserved. -/
theorem readVbReturnsTheSlot : Obligations.ReadVbReturnsTheSlot := by
  intro idx s h8
  refine ⟨decode_rdVb h8, ?_⟩
  by_cases h6 : idx < 6
  · rw [dif_pos h6, exec_rdVb h6]
  · rw [dif_neg h6, exec_rdVb_reserved (by omega)]

/-- Settles O43: the read after RESET returns RESET's value of CURSOR. -/
theorem readCursorReturnsCursor : Obligations.ReadCursorReturnsCursor :=
  ⟨by decide, exec_rdCursor, fun s => ⟨_, runOps_pair (exec_reset s) (exec_rdCursor _), rfl⟩⟩

/-- Settles O47: the scan after the press of D finds key A up and no key active, so it keeps D's event for the read. -/
theorem readBtnDoesNotConsume : Obligations.ReadBtnDoesNotConsume := by
  refine ⟨by decide, exec_rdBtn, fun s hs => ?_, fun s => ?_⟩
  · rw [BitVec.toNat_setWidth_of_le (by decide)]
    exact hs.btn_le
  · obtain ⟨t, ht, hbtn, hdown, hreads⟩ := exec_kpscan_keyD s
    obtain ⟨u, hu, hreads', hbtn'⟩ := exec_kpscan_no_key t
    refine ⟨_, (runOps_cons ht _).trans (runOps_pair hu (exec_rdBtn u)), ?_⟩
    have h6 : u.btn = 6#4 := by simp [hbtn', hdown, hbtn]
    simp [hreads', hreads, h6]

/-- Settles O49: RESET clears the count, and each of the three scans of key 2 counts one up. -/
theorem readHdReturnsTheCount : Obligations.ReadHdReturnsTheCount := by
  refine ⟨by decide, exec_rdHd, fun s hs => ?_, fun s => ?_⟩
  · rw [BitVec.toNat_setWidth_of_le (by decide)]
    exact hs.hd_le
  · obtain ⟨t, ht, hcount, -, hreads⟩ := runOps_scans (m := keyMask (.digit 2)) (by decide) (by decide) 3
      (trace .pinsReset (resetRegisters s)) (by simp)
    refine ⟨_, runOps_concat ((runOps_cons (exec_reset s) _).trans ht) (exec_rdHd t), ?_⟩
    have h3 : t.hd = 3#14 := BitVec.eq_of_toNat_eq (by simpa using hcount)
    simp [hreads, h3]

/-- Settles O51: addresses 0xC to 0xF hold no register. -/
theorem readReservedReturnsZero : Obligations.ReadReservedReturnsZero :=
  fun _ s h => ⟨decode_rdRsvd h, exec_rdRsvd h s⟩

/-! ## Writes -/

/-- A host write finds its own value stored. -/
theorem exec_hostWrite_again {i : Instr} (hi : isHostWrite i = true) {s t : State} (h : exec i s = .next t) :
    exec i t = .next t := by
  obtain ⟨u, hu, hagain⟩ := hostWrite_idempotent hi s
  cases hu.symm.trans h
  exact hagain

/-- Settles O48: the write to BTN stores Idle whatever BTN held, so also over an event a scan has just published. -/
theorem acknowledgeSetsIdle : Obligations.AcknowledgeSetsIdle :=
  ⟨fun d s => ⟨decode_ackBtn d, exec_ackBtn d s⟩, by decide, fun _ _ _ => exec_hostWrite_again rfl,
    fun d m s => ⟨_, (runOps_cons (exec_rdBtn s) _).trans (runOps_pair (exec_kpscan m _) (exec_ackBtn d _)), rfl⟩⟩

/-- After CLR.HD with key A down, `n` scans of key A and a release publish A's event by `n`. -/
theorem clrHd_then_release (d : Word) {n : Nat} {s : State} (hdown : s.aDown = true) (hn : n ≤ 12499) :
    ∃ t, runOps ([.clrHd d] ++ List.replicate n (.kpscan (keyMask .a)) ++ [.kpscan 0x0000#16]) s = .next t ∧
      t.btn = if n ≤ 4000 then 2#4 else 3#4 := by
  have hA : (keyMask .a).getLsbD 3 = true := by decide
  obtain ⟨t, ht, hcount, hdown', -⟩ :=
    runOps_scans (m := keyMask .a) (by decide) (by decide) n { s with hd := 0#14 } (by simpa using hn)
  obtain ⟨u, hu, -, hbtn⟩ := exec_kpscan_no_key t
  refine ⟨u, runOps_concat ((runOps_cons (exec_clrHd d s) _).trans ht) hu, ?_⟩
  have hstill : t.aDown = true := by rw [hdown', hA, hdown, ite_self]
  have hn' : t.hd.toNat = n := by simpa using hcount
  rw [hbtn, if_pos hstill, hn']

/-- Settles O50: CLR.HD leaves aDown, and each scan of key A keeps it and counts one up from 0. -/
theorem clearHdClearsOnlyTheCount : Obligations.ClearHdClearsOnlyTheCount :=
  ⟨fun d s => ⟨decode_clrHd d, exec_clrHd d s⟩, by decide, fun _ _ _ => exec_hostWrite_again rfl,
    fun d _ _ hdown hn => clrHd_then_release d hdown hn⟩

/-- Settles O52: addresses 0xC to 0xF hold no register. -/
theorem writeReservedChangesNothing : Obligations.WriteReservedChangesNothing :=
  fun _ d s h => ⟨decode_wrRsvd h d, exec_wrRsvd h d s⟩

/-! ## NOP -/

theorem exec_nop (s : State) : exec .nop s = .next s := rfl

/-- Settles O53: class 000 with no address and no data is NOP, whose step is the identity. -/
theorem nopIsTheIdentity : Obligations.NopIsTheIdentity :=
  ⟨by decide, exec_nop⟩

end Sys2Proof.HostPort
end

section
/-! PROOF. Every operation completes (60_exceptions.md rule R170). -/

namespace Sys2Proof.Exceptions

open Sys2Proof.Machine Sys2Proof.HostPort

/-- A host access completes as an access of the register space; each other operation by its own equation. -/
theorem exec_completes (i : Instr) (s : State) : ∃ t, exec i s = .next t := by
  have of_read (hi : isHostRead i = true) : ∃ t, exec i s = .next t := by
    obtain ⟨a, ha⟩ := exec_of_isHostRead hi
    exact ⟨_, ha s⟩
  have of_write (hi : isHostWrite i = true) : ∃ t, exec i s = .next t := by
    obtain ⟨a, v, hav⟩ := exec_of_isHostWrite hi
    exact ⟨_, hav s⟩
  cases i with
  | nop => exact ⟨_, exec_nop s⟩
  | tick => exact (exec_tick_activeSlot s).imp fun _ h => h.1
  | kpscan m => exact ⟨_, exec_kpscan m s⟩
  | idleto => exact ⟨_, exec_idleto s⟩
  | reset => exact ⟨_, exec_reset s⟩
  | rdVb | rdCursor | rdCchar | rdBtn | rdHd | rdRsvd => exact of_read rfl
  | wrVb | wrCursor | wrCchar | ackBtn | clrHd | wrRsvd => exact of_write rfl

/-- Settles O8: `exec` answers a next state in each of its arms, and `Fault` has no constructor (log 27), so there is no
fault a step could answer. -/
theorem everyOperationCompletes : Obligations.EveryOperationCompletes :=
  ⟨exec_completes, fun _ f => nomatch f⟩

end Sys2Proof.Exceptions
end

section
/-! PROOF. RESET (70_reset_and_hazards.md rule R190). -/

namespace Sys2Proof.Reset

open Sys2Proof.Machine Sys2Proof.HostPort

/-- The reset table of 10_state.md section 7 as literals; PinsReset moves the pins and leaves the chain. -/
theorem trace_pinsReset_resetRegisters (s : State) :
    trace .pinsReset (resetRegisters s) = { s with
      vb := #v[0x20#8, 0x20#8, 0x20#8, 0x20#8, 0x20#8, 0x20#8]
      cursor := 6#3
      cchar := 0x5F#8
      btn := 0#4
      hd := 0#14
      activeSlot := 0
      aDown := false
      sr := 0x0000#16
      pins := { digN := 0b111111#6, serData := false, serSck := false, serLck := false, rowN := 0b0000#4 }
      pinTrace := s.pinTrace ++ [.pinsReset] } := rfl

/-- Reading CURSOR, CCHAR and BTN in a row returns the three registers as they stand: no read moves a register. -/
theorem runOps_rdCursor_rdCchar_rdBtn (s : State) :
    ∃ t, runOps [.rdCursor, .rdCchar, .rdBtn] s = .next t ∧
      t.reads = s.reads ++ [s.cursor.setWidth 16, s.cchar.setWidth 16, s.btn.setWidth 16] :=
  ⟨_, (runOps_cons (exec_rdCursor s) _).trans (runOps_pair (exec_rdCchar _) (exec_rdBtn _)), by simp⟩

/-- Settles O57: RESET stores the tabled values and appends one event, and the three reads return the values it stored. -/
theorem resetSetsEverythingButTheChain : Obligations.ResetSetsEverythingButTheChain := by
  refine ⟨by decide, fun s => ?_, fun s => ?_⟩
  · rw [exec_reset, trace_pinsReset_resetRegisters]
  · obtain ⟨t, ht, hreads⟩ := runOps_rdCursor_rdCchar_rdBtn (trace .pinsReset (resetRegisters s))
    refine ⟨t, (runOps_cons (exec_reset s) _).trans ht, ?_⟩
    simpa [trace_pinsReset_resetRegisters] using hreads

end Sys2Proof.Reset
end

section
/-! PROOF. The two round trips of the word format, the decoder vectors, and the host port's rows (30_encoding.md sections 1
and 2, 42_host_port.md sections 2 and 3). -/

namespace Sys2Proof.RoundTrip

open Sys2Proof.Machine Sys2Proof.OpcodeMap

/-! ## The round trips -/

/-- A class decodes the address and data that an operation's word carries to that operation: an index that fits its field is
read back from the address, and every other address is a literal. -/
theorem decodeClass_encodeFields (i : Instr) (h : i.WellFormed) :
    decodeClass (encodeFields i).1 (encodeFields i).2.1 (encodeFields i).2.2 = .ok i := by
  cases i with
  | nop | tick | kpscan | idleto | reset => rfl
  | rdCursor | rdCchar | rdBtn | rdHd => rfl
  | wrCursor | wrCchar | ackBtn | clrHd => simp [encodeFields, decodeClass, writeOp]
  | rdVb idx => exact congrArg Except.ok (readOp_vbAddr (of_decide_eq_true h))
  | rdRsvd lo => exact congrArg Except.ok (readOp_rsvdAddr (of_decide_eq_true h))
  | wrVb idx d => exact congrArg Except.ok (writeOp_vbAddr (of_decide_eq_true h) d)
  | wrRsvd lo d => exact congrArg Except.ok (writeOp_rsvdAddr (of_decide_eq_true h) d)

/-- Settles O2: the decoder takes a built word apart into the fields it was built from. -/
theorem decodeOfEncode : Obligations.DecodeOfEncode := by
  intro i h
  rw [encode, decode_formatW]
  exact decodeClass_encodeFields i h

/-- Settles O3: an accepted word has its z bit 0, so it is the format of its fields, and each class gives back the address and
data it took. -/
theorem encodeOfDecode : Obligations.EncodeOfDecode :=
  fun _ _ => encode_of_decode

/-- Settles O1, by evaluating the decoder on the twelve words. -/
theorem sampleWordsDecode : Obligations.SampleWordsDecode := by
  unfold Obligations.SampleWordsDecode
  decide

/-! ## Rows of the host port -/

/-- Settles O42: below 6 the address is a slot's, and 6 and 7 are reserved. -/
theorem writeVbStoresTheSlot : Obligations.WriteVbStoresTheSlot := by
  intro idx d s h8
  refine ⟨decode_wrVb h8 d, ?_⟩
  by_cases h6 : idx < 6
  · rw [dif_pos h6, exec_wrVb h6]
  · rw [dif_neg h6, exec_wrVb_reserved (by omega)]

/-- Settles O44. -/
theorem writeCursorStoresThreeBits : Obligations.WriteCursorStoresThreeBits :=
  fun d s => ⟨decode_wrCursor d, exec_wrCursor d s⟩

/-- Settles O45. -/
theorem readCcharReturnsCchar : Obligations.ReadCcharReturnsCchar :=
  ⟨by decide, exec_rdCchar⟩

/-- Settles O46. -/
theorem writeCcharStoresEightBits : Obligations.WriteCcharStoresEightBits :=
  fun d s => ⟨decode_wrCchar d, exec_wrCchar d s⟩

end Sys2Proof.RoundTrip
end

section
/-! PROOF. What an operation does, said once: TICK as an update of the state, the seven forms an operation's effect takes, and
the pin events it adds. -/

namespace Sys2Proof.Effects

open Sys2Proof.Machine Sys2Proof.HostPort

/-! ## TICK as an update of the state -/

/-- The pattern a TICK sends: that of the character shown on the next slot (40_display_mux.md rule R103). -/
def nextPattern (s : State) : Word := patternFor (shownChar (s.activeSlot + 1) s)

/-- The events of a TICK (40_display_mux.md rule R102). -/
def tickEvents (s : State) : List PinEvent :=
  .digOff s.activeSlot :: frame (nextPattern s) ++ [.digOn (s.activeSlot + 1)]

/-- The state after a TICK. -/
def afterTick (s : State) : State :=
  { s with
    activeSlot := s.activeSlot + 1
    sr := nextPattern s
    pins := { s.pins with
      digN := (s.pins.digN ||| digitMask s.activeSlot) &&& ~~~(digitMask (s.activeSlot + 1))
      serData := (nextPattern s).getLsbD 15
      serSck := false
      serLck := false }
    chain := { xs := nextPattern s, xl := nextPattern s }
    pinTrace := s.pinTrace ++ tickEvents s }

theorem exec_tick (s : State) : exec .tick s = .next (afterTick s) := by
  simp only [exec, execTick, nextSlot_eq_succ, emit_eq, afterTick, tickEvents, nextPattern]
  simp [pinsAfter, disableDigit, enableDigit, trace]

@[simp] theorem afterTick_vb (s : State) : (afterTick s).vb = s.vb := rfl
@[simp] theorem afterTick_cursor (s : State) : (afterTick s).cursor = s.cursor := rfl
@[simp] theorem afterTick_cchar (s : State) : (afterTick s).cchar = s.cchar := rfl
@[simp] theorem afterTick_btn (s : State) : (afterTick s).btn = s.btn := rfl
@[simp] theorem afterTick_hd (s : State) : (afterTick s).hd = s.hd := rfl
@[simp] theorem afterTick_activeSlot (s : State) : (afterTick s).activeSlot = s.activeSlot + 1 := rfl
@[simp] theorem afterTick_aDown (s : State) : (afterTick s).aDown = s.aDown := rfl
@[simp] theorem afterTick_sr (s : State) : (afterTick s).sr = nextPattern s := rfl
@[simp] theorem afterTick_digN (s : State) : (afterTick s).pins.digN =
    (s.pins.digN ||| digitMask s.activeSlot) &&& ~~~(digitMask (s.activeSlot + 1)) := rfl
@[simp] theorem afterTick_chain (s : State) : (afterTick s).chain = { xs := nextPattern s, xl := nextPattern s } := rfl
@[simp] theorem afterTick_pinTrace (s : State) : (afterTick s).pinTrace = s.pinTrace ++ tickEvents s := rfl
@[simp] theorem afterTick_reads (s : State) : (afterTick s).reads = s.reads := rfl
@[simp] theorem afterTick_stimuli (s : State) : (afterTick s).stimuli = s.stimuli := rfl

/-- Settles O15: the digit off, the frame and the digit on move only the pins, the chain and SR. -/
theorem tickShowsTheNextSlot : Obligations.TickShowsTheNextSlot := by
  intro s next ch p
  rw [exec_tick, afterTick, tickEvents, frame_eq, frameBits]
  simp only [List.append_assoc, List.cons_append, List.nil_append]
  rfl

/-! ## The effect of an operation -/

/-- The state after a KPSCAN (41_keypad_decoder.md rule R120). -/
def afterScan (m : SampleMap) (s : State) : State :=
  { s with
    hd := (decodeKeys m s.aDown (advanceHd m s.hd)).hd
    cchar := (decodeKeys m s.aDown (advanceHd m s.hd)).cand.getD s.cchar
    btn := ((decodeKeys m s.aDown (advanceHd m s.hd)).evt.map eventCode).getD s.btn
    aDown := m.getLsbD 3
    pins := { s.pins with rowN := 0b0000#4 }
    pinTrace := s.pinTrace ++ scanEvents m }

theorem exec_kpscan_afterScan (m : SampleMap) (s : State) : exec (.kpscan m) s = .next (afterScan m s) := exec_kpscan m s

/-- What an operation makes of a state: a host access is an access of the register space, and each other operation is one
update. -/
inductive Effect : Instr → State → State → Prop where
  | nop (s : State) : Effect .nop s s
  | tick (s : State) : Effect .tick s (afterTick s)
  | kpscan (m : SampleMap) (s : State) : Effect (.kpscan m) s (afterScan m s)
  | idleto (s : State) : Effect .idleto s { s with hd := 0#14 }
  | read {i : Instr} (hi : isHostRead i = true) (a : RegAddr) (s : State) : Effect i s (hostRead a s)
  | write {i : Instr} (hi : isHostWrite i = true) (a : RegAddr) (v : Word) (s : State) : Effect i s (regWrite a v s)
  | reset (s : State) : Effect .reset s (trace .pinsReset (resetRegisters s))

theorem exec_effect {i : Instr} {s t : State} (h : exec i s = .next t) : Effect i s t := by
  have of_read (hi : isHostRead i = true) : Effect i s t := by
    obtain ⟨a, ha⟩ := exec_of_isHostRead hi
    cases (ha s).symm.trans h
    exact .read hi a s
  have of_write (hi : isHostWrite i = true) : Effect i s t := by
    obtain ⟨a, v, hav⟩ := exec_of_isHostWrite hi
    cases (hav s).symm.trans h
    exact .write hi a v s
  cases i with
  | nop => cases h; exact .nop s
  | tick => cases (exec_tick s).symm.trans h; exact .tick s
  | kpscan m => cases (exec_kpscan m s).symm.trans h; exact .kpscan m s
  | idleto => cases (exec_idleto s).symm.trans h; exact .idleto s
  | reset => cases (exec_reset s).symm.trans h; exact .reset s
  | rdVb | rdCursor | rdCchar | rdBtn | rdHd | rdRsvd => exact of_read rfl
  | wrVb | wrCursor | wrCchar | ackBtn | clrHd | wrRsvd => exact of_write rfl

/-! ## What a register write leaves unchanged -/

section
variable (a : RegAddr) (v : Word) (s : State)

@[simp] theorem regWrite_activeSlot : (regWrite a v s).activeSlot = s.activeSlot := by rw [regWrite_frame]
@[simp] theorem regWrite_aDown : (regWrite a v s).aDown = s.aDown := by rw [regWrite_frame]
@[simp] theorem regWrite_sr : (regWrite a v s).sr = s.sr := by rw [regWrite_frame]
@[simp] theorem regWrite_pins : (regWrite a v s).pins = s.pins := by rw [regWrite_frame]
@[simp] theorem regWrite_chain : (regWrite a v s).chain = s.chain := by rw [regWrite_frame]
@[simp] theorem regWrite_pinTrace : (regWrite a v s).pinTrace = s.pinTrace := by rw [regWrite_frame]
@[simp] theorem regWrite_reads : (regWrite a v s).reads = s.reads := by rw [regWrite_frame]
@[simp] theorem regWrite_stimuli : (regWrite a v s).stimuli = s.stimuli := by rw [regWrite_frame]

/-- A write keeps BTN or sets Idle (10_state.md rule R31). -/
theorem regWrite_btn_cases : (regWrite a v s).btn = s.btn ∨ (regWrite a v s).btn = 1#4 := by
  unfold regWrite; split_ifs <;> simp

/-- A write keeps HD or clears it (10_state.md rule R31). -/
theorem regWrite_hd_cases : (regWrite a v s).hd = s.hd ∨ (regWrite a v s).hd = 0#14 := by
  unfold regWrite; split_ifs <;> simp

end

/-! ## Pin events -/

/-- `t` has the pin events `es` beyond those of `s`, and they make its pins and its chain of those of `s`. -/
structure Emits (es : List PinEvent) (s t : State) : Prop where
  pinTrace : t.pinTrace = s.pinTrace ++ es
  board : boardAfter es s.pins s.chain = (t.pins, t.chain)

theorem Emits.eventsSince_eq {es : List PinEvent} {s t : State} (h : Emits es s t) : eventsSince s t = es :=
  eventsSince_of_append h.pinTrace

/-- An update that touches neither the pins nor the chain nor the trace emits nothing. -/
theorem Emits.nil_of_eq {s t : State} (hpins : t.pins = s.pins) (hchain : t.chain = s.chain)
    (htrace : t.pinTrace = s.pinTrace) : Emits [] s t :=
  ⟨by simp [htrace], by rw [boardAfter_nil, hpins, hchain]⟩

theorem Emits.trans {es fs : List PinEvent} {s t u : State} (h : Emits es s t) (h' : Emits fs t u) :
    Emits (es ++ fs) s u :=
  ⟨by rw [h'.pinTrace, h.pinTrace, List.append_assoc], by rw [boardAfter_append, h.board, h'.board]⟩

theorem afterTick_emits (s : State) : Emits (tickEvents s) s (afterTick s) := by
  refine ⟨rfl, ?_⟩
  rw [tickEvents, List.cons_append, boardAfter_cons, boardAfter_append, boardAfter_frame]
  rfl

theorem afterScan_emits (m : SampleMap) (s : State) : Emits (scanEvents m) s (afterScan m s) :=
  ⟨rfl, boardAfter_scanEvents m s.pins s.chain⟩

/-- RESET emits PinsReset alone (70_reset_and_hazards.md rule R190). -/
theorem reset_emits (s : State) : Emits [.pinsReset] s (trace .pinsReset (resetRegisters s)) := ⟨rfl, rfl⟩

/-- No operation moves a pin or the chain without an event of the trace (10_state.md rule R43). -/
theorem Effect.emits {i : Instr} {s t : State} (h : Effect i s t) : ∃ es, Emits es s t := by
  cases h with
  | nop | idleto | read => exact ⟨[], .nil_of_eq rfl rfl rfl⟩
  | tick => exact ⟨_, afterTick_emits s⟩
  | kpscan m => exact ⟨_, afterScan_emits m s⟩
  | write _ a v => exact ⟨[], .nil_of_eq (regWrite_pins a v s) (regWrite_chain a v s) (regWrite_pinTrace a v s)⟩
  | reset => exact ⟨_, reset_emits s⟩

/-- Only TICK moves the chain: the scan's events and PinsReset leave it (10_state.md rule R44). -/
theorem Effect.chain_eq {i : Instr} {s t : State} (h : Effect i s t) (htick : i ≠ .tick) : t.chain = s.chain := by
  cases h with
  | tick => exact absurd rfl htick
  | nop | kpscan | idleto | read | reset => rfl
  | write _ a v => exact regWrite_chain a v s

/-- Only a read adds a returned word, and it adds one. -/
theorem Effect.reads_eq {i : Instr} {s t : State} (h : Effect i s t) : ∃ ws, t.reads = s.reads ++ ws := by
  cases h with
  | nop | tick | kpscan | idleto | reset => exact ⟨[], (List.append_nil _).symm⟩
  | read _ a => exact ⟨[regRead a s], rfl⟩
  | write _ a v => exact ⟨[], by simp⟩

/-- No operation touches the pending events. -/
theorem Effect.stimuli_eq {i : Instr} {s t : State} (h : Effect i s t) : t.stimuli = s.stimuli := by
  cases h with
  | nop | tick | kpscan | idleto | read | reset => rfl
  | write _ a v => exact regWrite_stimuli a v s

end Sys2Proof.Effects
end

section
/-! PROOF. The step, the two records and the invariants of reachable states (10_state.md sections 5 to 8). -/

namespace Sys2Proof.Step

open Sys2Proof.Machine Sys2Proof.HostPort Sys2Proof.Effects

/-! ## The step -/

theorem step_of_pending {s : State} {w : Stimulus} {rest : List Stimulus} {i : Instr} (hs : s.stimuli = w :: rest)
    (hd : decode w = .ok i) : step s = exec i { s with stimuli := rest } := by
  have hf : fetch s = some (w, { s with stimuli := rest }) := by simp [fetch, hs]
  simp [step, hf, hd]

theorem step_of_no_pending {s : State} (hs : s.stimuli = []) : step s = .next s := by
  have hf : fetch s = none := by simp [fetch, hs]
  simp [step, hf, exec_nop]

/-- Settles O6: the pending word is fetched and decoded, and the operation runs on the state without it. -/
theorem stepRunsTheDecodedOperation : Obligations.StepRunsTheDecodedOperation :=
  fun _ _ _ _ => step_of_pending

/-- Settles O7: with nothing to fetch the step is NOP. -/
theorem stepWithoutEventChangesNothing : Obligations.StepWithoutEventChangesNothing :=
  fun _ => step_of_no_pending

/-- Everything a step that goes on can have done: the effect of one operation on the state without the head of its pending
words. -/
theorem step_effect {s t : State} (h : step s = .next t) :
    ∃ i, Effect i { s with stimuli := s.stimuli.tail } t := by
  rcases step_next_cases h with ⟨hs, hnop⟩ | ⟨w, rest, i, hs, -, hi⟩
  · cases hnop
    have hsame : ({ s with stimuli := s.stimuli.tail } : State) = s := by rw [hs]; cases s; cases hs; rfl
    exact ⟨.nop, by rw [hsame]; exact .nop s⟩
  · exact ⟨i, by rw [hs]; exact exec_effect hi⟩

/-- Settles O9: an operation adds events and returned words at the end of the two records and leaves the pending events, of which
the step has taken the head. -/
theorem stepOnlyExtendsObservations : Obligations.StepOnlyExtendsObservations := by
  intro s t h
  obtain ⟨i, hi⟩ := step_effect h
  obtain ⟨es, hes⟩ := hi.emits
  obtain ⟨ws, hws⟩ := hi.reads_eq
  exact ⟨⟨es, hes.pinTrace.symm⟩, ⟨ws, hws.symm⟩, hi.stimuli_eq⟩

/-! ## The pins and the chain are the replay of the trace -/

theorem traceExplains_of_emits {p : Pins} {c : Chain} {es : List PinEvent} {s t : State} (h : TraceExplains p c s)
    (hes : Emits es s t) : TraceExplains p c t := by
  have hs : boardAfter s.pinTrace p c = (s.pins, s.chain) := h
  rw [TraceExplains, hes.pinTrace, boardAfter_append, hs]
  exact hes.board

/-- Settles O13: the pins and the chain of a step's end are what the step's events make of those of its start. -/
theorem stepKeepsTraceExplainsPins : Obligations.StepKeepsTraceExplainsPins := by
  intro p c s t hs h
  obtain ⟨i, hi⟩ := step_effect h
  obtain ⟨es, hes⟩ := hi.emits
  exact traceExplains_of_emits hs ⟨hes.pinTrace, hes.board⟩

/-- Settles O14: the one event of the reset state's trace, PinsReset, sets every pin and leaves the chain. -/
theorem resetTraceExplainsPins : Obligations.ResetTraceExplainsPins :=
  fun _ => rfl

/-! ## The event a scan publishes -/

theorem eventAt_ne_none_idle {m : SampleMap} {aDown : Bool} {h : Nat} {k : KeyPos} {e : ButtonEvent}
    (he : eventAt m aDown h k = some e) : e ≠ .none ∧ e ≠ .idle := by
  unfold eventAt at he
  cases hk : keymap k with
  | digit => simp [hk] at he
  | a => simp only [hk] at he; split_ifs at he <;> cases he <;> decide
  | b | c | d | star | hash => simp only [hk] at he; split_ifs at he; cases he; decide

/-- The codes 2..8 are those of the events other than None and Idle (10_state.md rule R32). -/
theorem eventCode_range {e : ButtonEvent} (h : e ≠ .none ∧ e ≠ .idle) :
    2 ≤ (eventCode e).toNat ∧ (eventCode e).toNat ≤ 8 := by
  revert h; cases e <;> decide

theorem afterScan_btn_cases (m : SampleMap) (s : State) :
    (afterScan m s).btn = s.btn ∨ (2 ≤ (afterScan m s).btn.toNat ∧ (afterScan m s).btn.toNat ≤ 8) := by
  obtain ⟨-, hevt, -⟩ := decodeKeys_spec m s.aDown (advanceHd m s.hd)
  cases he : (decodeKeys m s.aDown (advanceHd m s.hd)).evt with
  | none => exact .inl (by simp [afterScan, he])
  | some e =>
    obtain ⟨k, -, hk⟩ := List.exists_of_findSome?_eq_some (hevt.symm.trans he)
    exact .inr (by simpa [afterScan, he] using eventCode_range (eventAt_ne_none_idle hk))

/-- Settles O36: a published event is one a key produces, and no key produces None or Idle. -/
theorem scanNeverWritesNoneOrIdle : Obligations.ScanNeverWritesNoneOrIdle :=
  fun m s => ⟨_, exec_kpscan_afterScan m s, afterScan_btn_cases m s⟩

/-! ## The invariant of reachable states -/

theorem heldCount_le (m : SampleMap) {hd : BitVec 14} (h : hd.toNat ≤ 12499) : heldCount m hd ≤ 12499 := by
  unfold heldCount; split_ifs <;> omega

theorem afterScan_hd_le (m : SampleMap) {s : State} (h : s.hd.toNat ≤ 12499) : (afterScan m s).hd.toNat ≤ 12499 := by
  have hle := heldCount_le m h
  rw [afterScan, decodeKeys_hd_toNat m s.aDown h]
  split_ifs <;> omega

theorem afterTick_getLsbD_digN (s : State) (j : Slot) : (afterTick s).pins.digN.getLsbD j.val =
    if j = s.activeSlot + 1 then false else if j = s.activeSlot then true else s.pins.digN.getLsbD j.val :=
  (getLsbD_digN_digOn (pinsAfter (.digOff s.activeSlot) s.pins) (s.activeSlot + 1) j).trans
    (by rw [getLsbD_digN_digOff])

theorem slot_val_le (i : Slot) : i.val ≤ 5 := by omega

/-- An update that keeps the slot and the pins, and HD and BTN in their ranges, keeps the invariant. -/
theorem stateInv_of_eq {s t : State} (hs : StateInv s) (hslot : t.activeSlot = s.activeSlot) (hpins : t.pins = s.pins)
    (hhd : t.hd.toNat ≤ 12499) (hbtn : t.btn.toNat ≤ 8) : StateInv t where
  slot_le := slot_val_le _
  hd_le := hhd
  btn_le := hbtn
  low_is_active i hi := by rw [hpins] at hi; rw [hslot]; exact hs.low_is_active i hi
  sck_low := by rw [hpins]; exact hs.sck_low
  lck_low := by rw [hpins]; exact hs.lck_low

theorem afterTick_stateInv {s : State} (hs : StateInv s) : StateInv (afterTick s) where
  slot_le := slot_val_le _
  hd_le := hs.hd_le
  btn_le := hs.btn_le
  low_is_active j hj := by
    rw [afterTick_getLsbD_digN] at hj
    split_ifs at hj with hnext hactive
    · exact hnext
    · exact absurd (hs.low_is_active j hj) hactive
  sck_low := rfl
  lck_low := rfl

theorem afterScan_stateInv (m : SampleMap) {s : State} (hs : StateInv s) : StateInv (afterScan m s) where
  slot_le := slot_val_le _
  hd_le := afterScan_hd_le m hs.hd_le
  btn_le := by
    rcases afterScan_btn_cases m s with h | ⟨-, h⟩
    · rw [h]; exact hs.btn_le
    · exact h
  low_is_active := hs.low_is_active
  sck_low := hs.sck_low
  lck_low := hs.lck_low

theorem regWrite_stateInv (a : RegAddr) (v : Word) {s : State} (hs : StateInv s) : StateInv (regWrite a v s) := by
  refine stateInv_of_eq hs (regWrite_activeSlot a v s) (regWrite_pins a v s) ?_ ?_
  · rcases regWrite_hd_cases a v s with h | h <;> rw [h]
    · exact hs.hd_le
    · decide
  · rcases regWrite_btn_cases a v s with h | h <;> rw [h]
    · exact hs.btn_le
    · decide

/-- At the reset levels no digit line is low. -/
theorem stateInv_of_reset_values {s : State} (hpins : s.pins = resetPins) (hhd : s.hd = 0#14) (hbtn : s.btn = 0#4) :
    StateInv s where
  slot_le := slot_val_le _
  hd_le := by rw [hhd]; decide
  btn_le := by rw [hbtn]; decide
  low_is_active i hi := by rw [hpins, getLsbD_resetPins_digN] at hi; cases hi
  sck_low := by rw [hpins]; rfl
  lck_low := by rw [hpins]; rfl

theorem stateInv_of_effect {i : Instr} {s t : State} (h : Effect i s t) (hs : StateInv s) : StateInv t := by
  cases h with
  | nop => exact hs
  | tick => exact afterTick_stateInv hs
  | kpscan m => exact afterScan_stateInv m hs
  | idleto => exact stateInv_of_eq hs rfl rfl (Nat.zero_le _) hs.btn_le
  | read _ a => exact stateInv_of_eq hs rfl rfl hs.hd_le hs.btn_le
  | write _ a v => exact regWrite_stateInv a v hs
  | reset => exact stateInv_of_reset_values rfl rfl rfl

theorem step_keeps_stateInv {s t : State} (hs : StateInv s) (h : step s = .next t) : StateInv t := by
  obtain ⟨i, hi⟩ := step_effect h
  exact stateInv_of_effect hi (stateInv_of_eq hs rfl rfl hs.hd_le hs.btn_le)

/-- Settles O10: TICK raises the one line that may be low before it lowers the next; the scan keeps the count below its ceiling
and publishes codes 2 to 8; every other operation keeps the pins, or sets them to their reset levels. -/
theorem stepKeepsStateInv : Obligations.StepKeepsStateInv :=
  fun _ _ => step_keeps_stateInv

/-- Settles O11: no digit line is low, and the count, the event and the slot are 0. -/
theorem resetSatisfiesStateInv : Obligations.ResetSatisfiesStateInv :=
  stateInv_of_reset_values rfl rfl rfl

/-- What every step keeps holds at the end of a run that starts where it holds. -/
theorem run_keeps {P : State → Prop} (hstep : ∀ s t, P s → step s = .next t → P t) (n : Nat) {s t : State} (hs : P s)
    (h : Host.Core.run core n s = .next t) : P t := by
  induction n generalizing s with
  | zero => cases h; exact hs
  | succ n ih =>
    simp only [Host.Core.run] at h
    cases hstep' : step s with
    | next u =>
      have hcore : core.step s = .next u := hstep'
      rw [hcore] at h
      exact ih (hstep s u hs hstep') h
    | fault r => exact nomatch r
    | refused r =>
      have hcore : core.step s = .refused r := hstep'
      rw [hcore] at h
      cases h

/-- A low line is the active slot's, so two low lines are one. -/
theorem atMostOneLow_of_stateInv {s : State} (h : StateInv s) : AtMostOneLow s.pins.digN :=
  fun i j hi hj => (h.low_is_active i hi).trans (h.low_is_active j hj).symm

/-- Settles O12, from O10 and O11 by induction on the number of steps. -/
theorem reachableStatesSatisfyStateInv : Obligations.ReachableStatesSatisfyStateInv := by
  intro ws n t h
  have ht : StateInv t := run_keeps stepKeepsStateInv n (stateInv_of_reset_values rfl rfl rfl) h
  exact ⟨ht.slot_le, ht.hd_le, ht.btn_le, atMostOneLow_of_stateInv ht, ht.low_is_active, ht.sck_low, ht.lck_low⟩

/-- Settles O58, by evaluating the reset state's fields. -/
theorem resetStateHasTheTabledValues : Obligations.ResetStateHasTheTabledValues := by
  and_intros <;> rfl

end Sys2Proof.Step
end

section
/-! PROOF. The refresh of the display: the order of a TICK's events, six TICKs, a fair run, and the first refresh after RESET
(40_display_mux.md sections 1 and 2, 70_reset_and_hazards.md section 1). -/

namespace Sys2Proof.Refresh

open Sys2Proof.Machine Sys2Proof.HostPort Sys2Proof.Exceptions Sys2Proof.Effects Sys2Proof.Step

/-! ## Events that move no digit line, and events that leave the latch -/

theorem digN_boardAfter {es : List PinEvent} (h : ∀ e ∈ es, ∀ p, (pinsAfter e p).digN = p.digN) (p : Pins) (c : Chain) :
    (boardAfter es p c).1.digN = p.digN := by
  induction es generalizing p c with
  | nil => rfl
  | cons e es ih =>
    obtain ⟨he, hes⟩ := List.forall_mem_cons.mp h
    rw [boardAfter_cons, ih hes, he]

theorem xl_chainAfter {e : PinEvent} (h : e ≠ .latch) (d : Bool) (c : Chain) : (chainAfter e d c).xl = c.xl := by
  cases e with
  | latch => exact absurd rfl h
  | _ => rfl

theorem xl_boardAfter {es : List PinEvent} (h : PinEvent.latch ∉ es) (p : Pins) (c : Chain) :
    (boardAfter es p c).2.xl = c.xl := by
  induction es generalizing p c with
  | nil => rfl
  | cons e es ih =>
    obtain ⟨he, hes⟩ := List.ne_and_not_mem_of_not_mem_cons h
    rw [boardAfter_cons, ih hes, xl_chainAfter (Ne.symm he)]

theorem mem_frameBits {e : PinEvent} {p : Word} {n : Nat} (h : e ∈ frameBits p n) : (∃ b, e = .data b) ∨ e = .shift := by
  obtain ⟨i, -, he⟩ := List.mem_flatMap.mp h
  rcases List.mem_pair.mp he with rfl | rfl
  · exact .inl ⟨_, rfl⟩
  · exact .inr rfl

/-- The frame drives the serial lines only. -/
theorem digN_of_mem_frame {e : PinEvent} {p : Word} (h : e ∈ frame p) (q : Pins) : (pinsAfter e q).digN = q.digN := by
  rw [frame_eq, List.mem_append, List.mem_singleton] at h
  rcases h with h | rfl
  · rcases mem_frameBits h with ⟨b, rfl⟩ | rfl <;> rfl
  · rfl

/-- The scan drives the row lines only. -/
theorem digN_of_isRowEvent {e : PinEvent} (h : isRowEvent e = true) (q : Pins) : (pinsAfter e q).digN = q.digN := by
  cases e with
  | row | cols | park => rfl
  | _ => cases h

/-! ## The order of a TICK -/

theorem tickEvents_length (s : State) : (tickEvents s).length = 35 := by
  simp [tickEvents, frame_length]

/-- The first 1 to 34 events of a TICK end within its frame. -/
theorem take_tickEvents (s : State) {n : Nat} (h1 : 1 ≤ n) (h34 : n ≤ 34) :
    (tickEvents s).take n = .digOff s.activeSlot :: (frame (nextPattern s)).take (n - 1) := by
  obtain ⟨k, rfl⟩ := Nat.exists_eq_add_of_le' h1
  rw [tickEvents, List.cons_append, List.take_succ_cons, List.take_append_of_le_length (by rw [frame_length]; omega)]
  rfl

/-- The pulse on SER_LCK is the 34th event of a TICK. -/
theorem latch_notMem_take_tickEvents (s : State) {n : Nat} (h : n ≤ 33) : PinEvent.latch ∉ (tickEvents s).take n := by
  have hsplit : tickEvents s =
      (.digOff s.activeSlot :: frameBits (nextPattern s) 16) ++ [.latch, .digOn (s.activeSlot + 1)] := by
    simp [tickEvents, frame_eq]
  rw [hsplit, List.take_append_of_le_length (by simpa [frameBits_length] using h)]
  intro hmem
  rcases List.mem_cons.mp (List.mem_of_mem_take hmem) with hoff | hbits
  · cases hoff
  · rcases mem_frameBits hbits with ⟨b, hb⟩ | hb <;> cases hb

theorem take_tickEvents_of_latched (s : State) {n : Nat} (h : 34 ≤ n) : (tickEvents s).take n =
    (.digOff s.activeSlot :: frame (nextPattern s)) ++ [.digOn (s.activeSlot + 1)].take (n - 34) := by
  rw [tickEvents, List.take_append, List.take_of_length_le (by simpa [frame_length] using h)]
  simp [frame_length]

theorem getLsbD_none_low : ∀ i : Slot, (0b111111#6).getLsbD i.val = true := getLsbD_resetPins_digN

/-- Where no other line than the active slot's is low, its DigOff raises all lines. -/
theorem digN_or_active {s : State} (hlow : ∀ i : Slot, s.pins.digN.getLsbD i.val = false → i = s.activeSlot) :
    s.pins.digN ||| digitMask s.activeSlot = 0b111111#6 := by
  refine BitVec.eq_of_getLsbD_eq fun i hi => ?_
  rw [getLsbD_none_low ⟨i, hi⟩, BitVec.getLsbD_or, digitMask_getLsbD s.activeSlot ⟨i, hi⟩]
  cases hbit : s.pins.digN.getLsbD i with
  | true => rfl
  | false => simp [hlow ⟨i, hi⟩ hbit]

/-- Between the DigOff and the DigOn of a TICK no digit is enabled. -/
theorem digN_during_tick {s : State} (hlow : ∀ i : Slot, s.pins.digN.getLsbD i.val = false → i = s.activeSlot) {n : Nat}
    (h1 : 1 ≤ n) (h34 : n ≤ 34) : (boardAfter ((tickEvents s).take n) s.pins s.chain).1.digN = 0b111111#6 := by
  rw [take_tickEvents s h1 h34, boardAfter_cons, digN_boardAfter fun e he => digN_of_mem_frame (List.mem_of_mem_take he)]
  exact digN_or_active hlow

theorem xl_before_latch (s : State) {n : Nat} (h : n ≤ 33) :
    (boardAfter ((tickEvents s).take n) s.pins s.chain).2.xl = s.chain.xl :=
  xl_boardAfter (latch_notMem_take_tickEvents s h) _ _

theorem xl_from_latch (s : State) {n : Nat} (h : 34 ≤ n) :
    (boardAfter ((tickEvents s).take n) s.pins s.chain).2.xl = nextPattern s := by
  have hlatch : PinEvent.latch ∉ [PinEvent.digOn (s.activeSlot + 1)].take (n - 34) := fun hmem => by
    cases List.mem_singleton.mp (List.mem_of_mem_take hmem)
  rw [take_tickEvents_of_latched s h, boardAfter_append, xl_boardAfter hlatch, boardAfter_cons, boardAfter_frame]

/-- Settles O17: the events before the frame and in it raise the one low line and lower none, and XL takes the pattern at the
frame's last event, the latch. -/
theorem tickDisablesEmitsEnables : Obligations.TickDisablesEmitsEnables := by
  refine ⟨fun s hs => ⟨afterTick s, nextPattern s, s.activeSlot + 1, exec_tick s, ?_⟩,
    fun _ _ _ h htick => (exec_effect h).chain_eq htick⟩
  rw [(afterTick_emits s).eventsSince_eq]
  exact ⟨rfl, tickEvents_length s, fun _ => digN_during_tick hs.low_is_active, fun _ => xl_before_latch s,
    fun _ => xl_from_latch s⟩

/-- Settles O21: the frame depends on the pattern alone, and so does what it leaves in XL. -/
theorem emitIsIdempotentInItsResult : Obligations.EmitIsIdempotentInItsResult := by
  have emit_events (p : Word) (s : State) : eventsSince s (emit p s) = frame p :=
    eventsSince_of_append (by rw [emit_eq])
  have emit_xl (p : Word) (s : State) : (emit p s).chain.xl = p := by rw [emit_eq]
  intro c s t u
  exact ⟨emit_events _ s, (emit_events _ t).trans (emit_events _ s).symm, (emit_xl _ t).trans (emit_xl _ s).symm⟩

/-! ## Six TICKs -/

/-- After no number of the events `es` are two digit lines low. -/
def NeverTwoLow (es : List PinEvent) (p : Pins) (c : Chain) : Prop :=
  ∀ n : Nat, AtMostOneLow (boardAfter (es.take n) p c).1.digN

theorem neverTwoLow_of_digN_kept {es : List PinEvent} (h : ∀ e ∈ es, ∀ p, (pinsAfter e p).digN = p.digN) {p : Pins}
    (hp : AtMostOneLow p.digN) (c : Chain) : NeverTwoLow es p c := fun n => by
  rwa [digN_boardAfter fun e he => h e (List.mem_of_mem_take he)]

theorem neverTwoLow_append {es fs : List PinEvent} {s t : State} (hes : Emits es s t)
    (h : NeverTwoLow es s.pins s.chain) (h' : NeverTwoLow fs t.pins t.chain) : NeverTwoLow (es ++ fs) s.pins s.chain := by
  intro n
  rw [List.take_append]
  by_cases hn : n ≤ es.length
  · rw [Nat.sub_eq_zero_of_le hn, List.take_zero, List.append_nil]
    exact h n
  · rw [List.take_of_length_le (by omega), boardAfter_append, hes.board]
    exact h' _

theorem atMostOneLow_of_none_low : AtMostOneLow 0b111111#6 := by
  intro i j hi
  rw [getLsbD_none_low i] at hi
  cases hi

/-- During a TICK at most one digit line is low: the old one before the DigOff, none up to the DigOn, then the new one. -/
theorem tick_neverTwoLow {s : State} (hs : StateInv s) : NeverTwoLow (tickEvents s) s.pins s.chain := by
  intro n
  rcases (by omega : n = 0 ∨ (1 ≤ n ∧ n ≤ 34) ∨ 35 ≤ n) with rfl | ⟨h1, h34⟩ | h35
  · exact atMostOneLow_of_stateInv hs
  · rw [digN_during_tick hs.low_is_active h1 h34]
    exact atMostOneLow_of_none_low
  · rw [List.take_of_length_le (by rw [tickEvents_length]; exact h35), (afterTick_emits s).board]
    exact atMostOneLow_of_stateInv (afterTick_stateInv hs)

/-- Every operation but TICK and RESET emits events of the key matrix only. -/
theorem exec_emits_row_events {i : Instr} {s t : State} (h : exec i s = .next t) (htick : i ≠ .tick)
    (hreset : i ≠ .reset) : ∃ es, Emits es s t ∧ ∀ e ∈ es, isRowEvent e = true := by
  obtain ⟨es, hes⟩ := (exec_effect h).emits
  obtain ⟨fs, hrow, hfs⟩ := (exec_leavesDisplay h htick hreset).rowEvents
  have hsame : es = fs := List.append_cancel_left (hes.pinTrace.symm.trans hfs)
  exact ⟨es, hes, hsame ▸ hrow⟩

theorem digOns_append (es fs : List PinEvent) : digOns (es ++ fs) = digOns es ++ digOns fs :=
  List.filterMap_append

theorem digOns_tickEvents (s : State) : digOns (tickEvents s) = [s.activeSlot + 1] := rfl

/-- The `n` slots after `i` in cyclic order. -/
def slotsAfter : Slot → Nat → List Slot
  | _, 0 => []
  | i, n + 1 => (i + 1) :: slotsAfter (i + 1) n

/-- One operation but RESET: the slot it enables, if it is a TICK, and at most one line low throughout. -/
theorem exec_refresh {i : Instr} (hreset : i ≠ .reset) {s : State} (hs : StateInv s) : ∃ t es, exec i s = .next t ∧
    StateInv t ∧ Emits es s t ∧ NeverTwoLow es s.pins s.chain ∧
      ∀ n, digOns es ++ slotsAfter t.activeSlot n = slotsAfter s.activeSlot (if i = .tick then n + 1 else n) := by
  by_cases htick : i = .tick
  · subst htick
    exact ⟨afterTick s, tickEvents s, exec_tick s, afterTick_stateInv hs, afterTick_emits s, tick_neverTwoLow hs,
      fun _ => by rw [digOns_tickEvents]; rfl⟩
  · obtain ⟨t, ht⟩ := exec_completes i s
    obtain ⟨es, hes, hrow⟩ := exec_emits_row_events ht htick hreset
    refine ⟨t, es, ht, stateInv_of_effect (exec_effect ht) hs, hes, ?_, fun n => ?_⟩
    · exact neverTwoLow_of_digN_kept (fun e he => digN_of_isRowEvent (hrow e he)) (atMostOneLow_of_stateInv hs) _
    · rw [digOns_of_row_events hrow, (exec_leavesDisplay ht htick hreset).activeSlot, if_neg htick, List.nil_append]

/-- Operations without RESET enable as many digits as they have TICKs, in cyclic order, and never two at a time. -/
theorem runOps_refresh {ops : List Instr} (hreset : Instr.reset ∉ ops) {s : State} (hs : StateInv s) :
    ∃ t es, runOps ops s = .next t ∧ Emits es s t ∧ NeverTwoLow es s.pins s.chain ∧
      digOns es = slotsAfter s.activeSlot (ops.count .tick) := by
  induction ops generalizing s with
  | nil => exact ⟨s, [], rfl, .nil_of_eq rfl rfl rfl, neverTwoLow_of_digN_kept (by simp) (atMostOneLow_of_stateInv hs) _, rfl⟩
  | cons i ops ih =>
    obtain ⟨hi, hops⟩ := List.ne_and_not_mem_of_not_mem_cons hreset
    obtain ⟨t, es, ht, htinv, hes, hlow, hslots⟩ := exec_refresh (Ne.symm hi) hs
    obtain ⟨u, fs, hu, hfs, hlow', hslots'⟩ := ih hops htinv
    refine ⟨u, es ++ fs, (runOps_cons ht ops).trans hu, hes.trans hfs, neverTwoLow_append hes hlow hlow', ?_⟩
    rw [digOns_append, hslots', hslots, List.count_cons]
    simp only [beq_iff_eq]
    split_ifs <;> rfl

theorem slotsAfter_six : ∀ i : Slot, slotsAfter i 6 = [i + 1, i + 2, i + 3, i + 4, i + 5, i + 6] := by decide

theorem count_slotsAfter_six : ∀ i j : Slot, (slotsAfter i 6).count j = 1 := by decide

/-- Settles O19: six TICKs enable the six slots after the active one in cyclic order, which is each slot once. -/
theorem sixTicksEnableEachDigitOnce : Obligations.SixTicksEnableEachDigitOnce := by
  intro ops s hs hreset hsix
  obtain ⟨t, es, ht, hes, hlow, hslots⟩ := runOps_refresh hreset hs
  rw [hsix] at hslots
  refine ⟨t, ht, ?_⟩
  rw [hes.eventsSince_eq, hslots]
  exact ⟨slotsAfter_six _, count_slotsAfter_six _, hlow⟩

/-! ## TICKs in a row -/

theorem runOps_ticks (n : Nat) (s : State) : runOps (List.replicate n .tick) s = .next (afterTick^[n] s) := by
  induction n generalizing s with
  | zero => rfl
  | succ n ih => exact (runOps_cons (exec_tick s) _).trans (ih _)

theorem afterTick_iterate_activeSlot (n : Nat) (s : State) : (afterTick^[n] s).activeSlot = nextSlot^[n] s.activeSlot := by
  induction n with
  | zero => rfl
  | succ n ih => rw [Function.iterate_succ_apply', Function.iterate_succ_apply', afterTick_activeSlot, ih, nextSlot_eq_succ]

/-- A TICK writes none of the cells a character is taken from. -/
theorem shownChar_afterTick (i : Slot) (s : State) : shownChar i (afterTick s) = shownChar i s := rfl

theorem shownChar_afterTick_iterate (n : Nat) (i : Slot) (s : State) : shownChar i (afterTick^[n] s) = shownChar i s := by
  induction n with
  | zero => rfl
  | succ n ih => rw [Function.iterate_succ_apply', shownChar_afterTick, ih]

/-- After one or more TICKs the active slot's digit is enabled and the chain shows its character. -/
theorem ticks_show (n : Nat) (s : State) :
    (afterTick^[n + 1] s).pins.digN.getLsbD (afterTick^[n + 1] s).activeSlot.val = false ∧
      (afterTick^[n + 1] s).chain.xl = patternFor (shownChar (afterTick^[n + 1] s).activeSlot s) := by
  rw [Function.iterate_succ_apply']
  refine ⟨?_, ?_⟩
  · rw [afterTick_getLsbD_digN, afterTick_activeSlot, if_pos rfl]
  · rw [afterTick_chain, nextPattern, shownChar_afterTick_iterate, afterTick_activeSlot]

/-- One to six slots after any slot is any slot. -/
theorem exists_slot_distance : ∀ i j : Slot, ∃ n : Fin 6, nextSlot^[n.val + 1] i = j := by decide

/-- Within six TICKs every slot is active, its digit enabled and its character shown. -/
theorem ticks_reach (i : Slot) (s : State) : ∃ n t, 1 ≤ n ∧ n ≤ 6 ∧ runOps (List.replicate n .tick) s = .next t ∧
    t.activeSlot = i ∧ t.pins.digN.getLsbD i.val = false ∧ t.chain.xl = patternFor (shownChar i s) := by
  obtain ⟨n, hn⟩ := exists_slot_distance s.activeSlot i
  have hslot : (afterTick^[n.val + 1] s).activeSlot = i := (afterTick_iterate_activeSlot _ s).trans hn
  obtain ⟨hlow, hxl⟩ := ticks_show n.val s
  rw [hslot] at hlow hxl
  exact ⟨n.val + 1, _, by omega, by omega, runOps_ticks _ s, hslot, hlow, hxl⟩

/-! ## Fair runs -/

section
variable {arr : Nat → List Stimulus} {run : Nat → State}

/-- A TICK of a run advances the slot and enables its digit. -/
theorem run_tick (hrun : IsRun arr run) {n : Nat} (htick : performedAt arr run n = some .tick) :
    (run (n + 1)).activeSlot = nextSlot (run n).activeSlot ∧
      (run (n + 1)).pins.digN.getLsbD (run (n + 1)).activeSlot.val = false := by
  obtain ⟨i, hi, hexec⟩ := performedAt_of_isRun hrun n
  cases hi.symm.trans htick
  rw [exec_tick] at hexec
  injection hexec with hnext
  rw [← hnext]
  exact ⟨(nextSlot_eq_succ _).symm, by rw [afterTick_getLsbD_digN, afterTick_activeSlot, if_pos rfl]⟩

theorem run_slot_of_not_tick (hrun : IsRun arr run) {n : Nat} (hreset : performedAt arr run n ≠ some .reset)
    (htick : performedAt arr run n ≠ some .tick) : (run (n + 1)).activeSlot = (run n).activeSlot := by
  obtain ⟨i, hi, hexec⟩ := performedAt_of_isRun hrun n
  rw [hi] at hreset htick
  exact (exec_leavesDisplay hexec (fun h => htick (congrArg some h)) (fun h => hreset (congrArg some h))).activeSlot

/-- Where a TICK is performed `d` indexes on, the first TICK from here on advances the slot by one. -/
theorem run_first_tick (hrun : IsRun arr run) (hreset : ∀ n, performedAt arr run n ≠ some .reset) (d : Nat) :
    ∀ n, performedAt arr run (n + d) = some .tick →
      ∃ m, n ≤ m ∧ performedAt arr run m = some .tick ∧ (run (m + 1)).activeSlot = nextSlot (run n).activeSlot := by
  induction d with
  | zero => exact fun n htick => ⟨n, le_refl n, htick, (run_tick hrun htick).1⟩
  | succ d ih =>
    intro n htick
    by_cases hnow : performedAt arr run n = some .tick
    · exact ⟨n, le_refl n, hnow, (run_tick hrun hnow).1⟩
    · obtain ⟨m, hm, htickm, hslot⟩ := ih (n + 1) (by rwa [Nat.add_right_comm, Nat.add_assoc])
      exact ⟨m, by omega, htickm, hslot.trans (by rw [run_slot_of_not_tick hrun (hreset n) hnow])⟩

/-- A fair run without RESET advances the slot again and again. -/
theorem run_slot_advances (hrun : IsRun arr run) (hfair : Fair arr run)
    (hreset : ∀ n, performedAt arr run n ≠ some .reset) (k : Nat) : ∀ n, ∃ m, n ≤ m ∧
      performedAt arr run m = some .tick ∧ (run (m + 1)).activeSlot = nextSlot^[k + 1] (run n).activeSlot := by
  have advance (n : Nat) : ∃ m, n ≤ m ∧ performedAt arr run m = some .tick ∧
      (run (m + 1)).activeSlot = nextSlot (run n).activeSlot := by
    obtain ⟨m, hm, htick⟩ := hfair n
    exact run_first_tick hrun hreset (m - n) n (by rwa [Nat.add_sub_cancel' hm])
  induction k with
  | zero => exact advance
  | succ k ih =>
    intro n
    obtain ⟨m, hm, -, hslot⟩ := ih n
    obtain ⟨m', hm', htick', hslot'⟩ := advance (m + 1)
    exact ⟨m', by omega, htick', by rw [hslot', hslot, ← Function.iterate_succ_apply' nextSlot]⟩

theorem run_enables_every_digit (hrun : IsRun arr run) (hfair : Fair arr run)
    (hreset : ∀ n, performedAt arr run n ≠ some .reset) (i : Slot) (n : Nat) : ∃ m, n ≤ m ∧
      performedAt arr run m = some .tick ∧ (run (m + 1)).activeSlot = i ∧
        (run (m + 1)).pins.digN.getLsbD i.val = false := by
  obtain ⟨k, hk⟩ := exists_slot_distance (run n).activeSlot i
  obtain ⟨m, hm, htick, hslot⟩ := run_slot_advances hrun hfair hreset k.val n
  have hi : (run (m + 1)).activeSlot = i := hslot.trans hk
  exact ⟨m, hm, htick, hi, hi ▸ (run_tick hrun htick).2⟩

end

/-- Settles O22: within six TICKs the written slot is the active one and its character is shown; in a fair run the
first TICK to come advances the slot by one, so as many of them reach any slot, and the last of these enables its digit. -/
theorem writeIsVisibleWithinSixTicks : Obligations.WriteIsVisibleWithinSixTicks := by
  refine ⟨fun idx d s hidx hcur => ?_, fun d s hcur => ?_, fun _ _ => run_enables_every_digit⟩
  · obtain ⟨n, t, h1, h6, ht, hslot, hlow, hxl⟩ :=
      ticks_reach ⟨idx, hidx⟩ { s with vb := s.vb.set idx (d.setWidth 8) hidx }
    have hshown : shownChar ⟨idx, hidx⟩ { s with vb := s.vb.set idx (d.setWidth 8) hidx } = d.setWidth 8 := by
      simp [shownChar, hcur]
    exact ⟨n, t, h1, h6, (runOps_cons (exec_wrVb hidx d s) _).trans ht, congrArg Fin.val hslot, hlow, hshown ▸ hxl⟩
  · obtain ⟨n, t, h1, h6, ht, hslot, hlow, hxl⟩ := ticks_reach ⟨s.cursor.toNat, hcur⟩ { s with cchar := d.setWidth 8 }
    have hshown : shownChar ⟨s.cursor.toNat, hcur⟩ { s with cchar := d.setWidth 8 } = d.setWidth 8 := by
      simp [shownChar]
    exact ⟨n, t, h1, h6, (runOps_cons (exec_wrCchar d s) _).trans ht, congrArg Fin.val hslot, hlow, hshown ▸ hxl⟩

/-! ## After RESET -/

/-- Operations without TICK enable no digit. -/
theorem runOps_dark {ops : List Instr} (htick : Instr.tick ∉ ops) {s : State} (hs : s.pins.digN = 0b111111#6) :
    ∃ t, runOps ops s = .next t ∧ t.pins.digN = 0b111111#6 := by
  induction ops generalizing s with
  | nil => exact ⟨s, rfl, hs⟩
  | cons i ops ih =>
    obtain ⟨hi, hops⟩ := List.ne_and_not_mem_of_not_mem_cons htick
    obtain ⟨t, ht⟩ := exec_completes i s
    have hdark : t.pins.digN = 0b111111#6 := by
      by_cases hreset : i = .reset
      · subst hreset
        cases (exec_reset s).symm.trans ht
        rfl
      · rw [(exec_leavesDisplay ht (Ne.symm hi) hreset).digN, hs]
    obtain ⟨u, hu, hdark'⟩ := ih hops hdark
    exact ⟨u, (runOps_cons ht ops).trans hu, hdark'⟩

/-- Settles O59: RESET raises every digit line, only TICK lowers one, and it does so after its frame has filled the chain. -/
theorem unknownChainIsNeverShown : Obligations.UnknownChainIsNeverShown := by
  intro ops s htick
  obtain ⟨t, ht, hdark⟩ := runOps_dark htick (s := trace .pinsReset (resetRegisters s)) rfl
  refine ⟨t, afterTick t, (runOps_cons (exec_reset s) ops).trans ht, hdark, exec_tick t, rfl, rfl, fun n h34 => ?_⟩
  rw [(afterTick_emits t).eventsSince_eq]
  rcases Nat.eq_zero_or_pos n with rfl | h1
  · exact hdark
  · exact digN_during_tick (fun i hi => by rw [hdark, getLsbD_none_low] at hi; cases hi) h1 h34

/-- Nothing to show: every slot holds the space and the cursor is at no slot. -/
structure Blank (s : State) : Prop where
  vb : s.vb = Vector.replicate 6 blank
  cursor : s.cursor = cursorNone

theorem Blank.patternFor_shownChar {s : State} (h : Blank s) (i : Slot) : patternFor (shownChar i s) = 0x0000#16 := by
  have hcur : s.cursor.toNat ≠ i.val := by
    have h6 : cursorNone.toNat = 6 := rfl
    rw [h.cursor, h6]
    omega
  have hshown : shownChar i s = 0x20#8 := by
    rw [shownChar, if_neg hcur]
    simp [h.vb, blank]
  rw [hshown, patternFor_space]

theorem Blank.kept_by_tick {s : State} (h : Blank s) : Blank (afterTick s) := ⟨h.vb, h.cursor⟩

/-- The events of a TICK from one slot to another whose frame is sixteen zeros. -/
def darkTick (q : Slot × Slot) : List PinEvent :=
  [.digOff q.1] ++ (List.replicate 16 [PinEvent.data false, .shift]).flatten ++ [.latch, .digOn q.2]

/-- The slots that `n` TICKs go from and to, from slot `i` on. -/
def slotPairs : Slot → Nat → List (Slot × Slot)
  | _, 0 => []
  | i, n + 1 => (i, i + 1) :: slotPairs (i + 1) n

theorem slotPairs_six : slotPairs 0 6 = [(0, 1), (1, 2), (2, 3), (3, 4), (4, 5), (5, 0)] := rfl

theorem frame_zero : frame 0x0000#16 = (List.replicate 16 [PinEvent.data false, .shift]).flatten ++ [.latch] := by decide

theorem Blank.tickEvents_eq {s : State} (h : Blank s) : tickEvents s = darkTick (s.activeSlot, s.activeSlot + 1) := by
  rw [tickEvents, nextPattern, h.patternFor_shownChar, frame_zero, darkTick]
  simp only [List.cons_append, List.append_assoc, List.nil_append]

theorem Blank.ticks_emit {s : State} (h : Blank s) (n : Nat) :
    Emits ((slotPairs s.activeSlot n).flatMap darkTick) s (afterTick^[n] s) := by
  induction n generalizing s with
  | zero => exact .nil_of_eq rfl rfl rfl
  | succ n ih => exact (h.tickEvents_eq ▸ afterTick_emits s).trans (ih h.kept_by_tick)

theorem afterTick_iterate_stateInv (n : Nat) {s : State} (hs : StateInv s) : StateInv (afterTick^[n] s) :=
  Function.Iterate.rec StateInv hs (fun _ => afterTick_stateInv) n

/-- The new slot's line alone is low after a TICK. -/
theorem digN_afterTick {s : State} (hs : StateInv s) :
    (afterTick s).pins.digN = ~~~(digitMask (s.activeSlot + 1)) := by
  rw [afterTick_digN, digN_or_active hs.low_is_active]
  exact BitVec.allOnes_and

/-- Settles O60: RESET leaves nothing to show, so each of the six frames is dark, and the sixth TICK enables digit 0 again. -/
theorem firstRefreshAfterResetIsDark : Obligations.FirstRefreshAfterResetIsDark := by
  intro s
  have hblank : Blank (trace .pinsReset (resetRegisters s)) := ⟨rfl, rfl⟩
  have hinv : StateInv (trace .pinsReset (resetRegisters s)) := stateInv_of_reset_values rfl rfl rfl
  have hemits := (reset_emits s).trans (hblank.ticks_emit 6)
  refine ⟨_, (runOps_cons (exec_reset s) _).trans (runOps_ticks 6 _), ?_, ?_, ?_⟩
  · rw [hemits.eventsSince_eq, trace_activeSlot, resetRegisters_activeSlot, slotPairs_six]
    rfl
  · exact (ticks_show 5 _).2.trans (hblank.patternFor_shownChar _)
  · rw [Function.iterate_succ_apply', digN_afterTick (afterTick_iterate_stateInv 5 hinv), afterTick_iterate_activeSlot,
      trace_activeSlot, resetRegisters_activeSlot]
    decide

end Sys2Proof.Refresh
end

section
/-! PROOF. What a scan publishes: the candidate, the event, the count and aDown (41_keypad_decoder.md sections 1 to 6). -/

namespace Sys2Proof.Scan

open Sys2Proof.Machine Sys2Proof.HostPort Sys2Proof.Effects Sys2Proof.Step

/-! ## KPSCAN as an update of the state -/

/-- Settles O25: the scan's events end with the rows parked, and the commit writes HD, CCHAR, BTN and aDown. -/
theorem scanCompletesAndChangesOnlyDecoderState : Obligations.ScanCompletesAndChangesOnlyDecoderState :=
  fun m s => ⟨_, _, _, (exec_kpscan m s).trans (by simp only [scanEvents, sampleRow_eq]; rfl)⟩

/-- The decode reads aDown and HD only. -/
theorem afterScan_withCursor (m : SampleMap) (s : State) (c : BitVec 3) :
    afterScan m { s with cursor := c } = { afterScan m s with cursor := c } := rfl

/-! ## The candidate -/

/-- The mask of the ten digit keys (log 6). -/
theorem digitActive_eq (m : SampleMap) (k : KeyPos) : digitActive m k = (m &&& 0x2777#16).getLsbD k.val := by
  rw [digitActive, BitVec.getLsbD_and]
  congr 1
  revert k
  decide

theorem digitActive_eq_false {m : SampleMap} (h : m &&& 0x2777#16 = 0#16) (k : KeyPos) : digitActive m k = false := by
  rw [digitActive_eq, h, BitVec.getLsbD_zero]

/-- The highest active digit key sets the candidate. -/
theorem afterScan_cchar {m : SampleMap} {s : State} {k : KeyPos} {d : Fin 10} (hk : keymap k = .digit d)
    (hm : m.getLsbD k.val = true) (hhigh : ∀ k' : KeyPos, k < k' → digitActive m k' = false) : (afterScan m s).cchar =
      if d = 0 then
        (if (advanceHd m s.hd).toNat < 2500 then 0x30#8 else if (advanceHd m s.hd).toNat < 5000 then 0x20#8 else 0x30#8)
      else tapChar d (advanceHd m s.hd) := by
  obtain ⟨hcand, -, -⟩ := decodeKeys_spec m s.aDown (advanceHd m s.hd)
  have hsets := findSome?_highest (candAt m (advanceHd m s.hd)) (k := k) (by rw [candAt, if_pos hm, hk])
    fun k' hk' => (candAt_eq_none m _ k').mpr (hhigh k' hk')
  rw [afterScan, hcand, hsets]
  rfl

/-- With no digit key active there is no candidate. -/
theorem afterScan_cchar_of_no_digit {m : SampleMap} (h : ∀ k : KeyPos, digitActive m k = false) (s : State) :
    (afterScan m s).cchar = s.cchar := by
  obtain ⟨hcand, -, -⟩ := decodeKeys_spec m s.aDown (advanceHd m s.hd)
  have hnone : (List.finRange 16).reverse.findSome? (candAt m (advanceHd m s.hd)) = none :=
    List.findSome?_eq_none_iff.mpr fun k _ => (candAt_eq_none m _ k).mpr (h k)
  rw [afterScan, hcand, hnone]
  rfl

theorem charList_length_pos : ∀ d : Fin 10, 0 < (charList d).length := by decide

/-- The stage is within the list, so the fallback does not matter (41_keypad_decoder.md rule R125). -/
theorem tapChar_eq (d : Fin 10) (h : BitVec 14) (fallback : CharCode) :
    tapChar d h = (charList d).getD (min (h.toNat / 2500) ((charList d).length - 1)) fallback := by
  have hin : min (h.toNat / 2500) ((charList d).length - 1) < (charList d).length := by
    have := charList_length_pos d
    omega
  have hstage : stage h (charList d).length = min (h.toNat / 2500) ((charList d).length - 1) := rfl
  rw [tapChar, hstage, List.getD_eq_getElem _ _ hin, List.getD_eq_getElem _ _ hin]

/-- Settles O28: the decode goes through the positions in ascending order, so the highest active digit key writes last. -/
theorem highestDigitKeySetsTheCandidate : Obligations.HighestDigitKeySetsTheCandidate := by
  refine fun m s hs => ⟨_, exec_kpscan_afterScan m s, fun k d hk hm hhigh => ?_, fun h => afterScan_cchar_of_no_digit h s⟩
  rw [afterScan_cchar hk hm hhigh, tapChar_eq d _ 0x00#8, advanceHd_toNat m hs]

/-- Settles O33: CURSOR is not read by the decode, and the mask leaves no digit key active. -/
theorem candidateIgnoresTheCursor : Obligations.CandidateIgnoresTheCursor :=
  fun m s c => ⟨_, _, exec_kpscan_afterScan m s, exec_kpscan_afterScan m _, afterScan_withCursor m s c,
    fun h => afterScan_cchar_of_no_digit (digitActive_eq_false h) s⟩

/-! ## Key 0 -/

/-- Above key 0 no position is a digit key's. -/
theorem digitActive_above_keyZero (m : SampleMap) (k : KeyPos) (h : 13 < k) : digitActive m k = false := by
  have hmask : ∀ k : KeyPos, 13 < k → (0x2777#16).getLsbD k.val = false := by decide
  rw [digitActive_eq, BitVec.getLsbD_and, hmask k h, Bool.and_false]

theorem afterScan_hd_of_keyZero {m : SampleMap} {s : State} (hs : s.hd.toNat ≤ 12499) (hm : m.getLsbD 13 = true) :
    (afterScan m s).hd.toNat = if 5000 ≤ heldCount m s.hd then 0 else heldCount m s.hd := by
  have hzero : m &&& keyMask (.digit 0) ≠ 0#16 := (and_keyMask_ne_zero_iff m (.digit 0)).mpr hm
  rw [afterScan, decodeKeys_hd_toNat m s.aDown hs]
  simp only [hzero, ne_eq, not_false_eq_true, true_and]

theorem afterScan_cchar_of_keyZero {m : SampleMap} {s : State} (hs : s.hd.toNat ≤ 12499) (hm : m.getLsbD 13 = true) :
    (afterScan m s).cchar =
      if heldCount m s.hd < 2500 then 0x30#8 else if heldCount m s.hd < 5000 then 0x20#8 else 0x30#8 := by
  have h0 : keymap 13 = .digit 0 := by decide
  rw [afterScan_cchar h0 hm (digitActive_above_keyZero m), if_pos rfl, advanceHd_toNat m hs]

/-- Settles O31: key 0 is the highest digit key, so its stages decide both CCHAR and the count. -/
theorem keyZeroStages : Obligations.KeyZeroStages := by
  intro m s hs hm
  refine ⟨_, exec_kpscan_afterScan m s, ?_⟩
  rw [afterScan_cchar_of_keyZero hs hm, afterScan_hd_of_keyZero hs hm]
  refine ⟨fun h => ?_, fun h h' => ?_, fun h => ?_⟩
  · rw [if_pos h, if_neg (by omega)]; exact ⟨rfl, rfl⟩
  · rw [if_neg (by omega), if_pos h', if_neg (by omega)]; exact ⟨rfl, rfl⟩
  · rw [if_neg (by omega), if_neg (by omega), if_pos h]; exact ⟨rfl, rfl⟩

/-! ## The event -/

/-- The highest position that produces an event publishes it. -/
theorem afterScan_btn {m : SampleMap} {s : State} {k : KeyPos} {e : ButtonEvent}
    (he : eventAt m s.aDown (advanceHd m s.hd).toNat k = some e)
    (hhigh : ∀ k' : KeyPos, k < k' → eventAt m s.aDown (advanceHd m s.hd).toNat k' = none) :
    (afterScan m s).btn = eventCode e := by
  obtain ⟨-, hevt, -⟩ := decodeKeys_spec m s.aDown (advanceHd m s.hd)
  rw [afterScan, hevt, findSome?_highest _ he hhigh]
  rfl

theorem afterScan_btn_of_no_event {m : SampleMap} {s : State}
    (h : ∀ k : KeyPos, eventAt m s.aDown (advanceHd m s.hd).toNat k = none) : (afterScan m s).btn = s.btn := by
  obtain ⟨-, hevt, -⟩ := decodeKeys_spec m s.aDown (advanceHd m s.hd)
  rw [afterScan, hevt, List.findSome?_eq_none_iff.mpr fun k _ => h k]
  rfl

/-- Settles O29: the decode goes through the positions in ascending order, so the highest event is written last. -/
theorem highestEventPositionSetsTheEvent : Obligations.HighestEventPositionSetsTheEvent := by
  refine fun m s hs => ⟨_, exec_kpscan_afterScan m s, ?_⟩
  rw [← advanceHd_toNat m hs]
  exact ⟨fun _ _ he hhigh => afterScan_btn he hhigh, afterScan_btn_of_no_event⟩

/-- The positions of the command keys other than A: B 7, C 11, star 12, hash 14, D 15 (log 6). -/
theorem keymap_digit_or_command : ∀ k : KeyPos, k = 3 ∨ (∃ d, keymap k = .digit d) ∨ (0xD880#16).getLsbD k.val = true := by
  decide

/-- Where no command key other than A is active, there is no event but key A's. -/
theorem eventAt_eq_none {m : SampleMap} {k : KeyPos} (hk : k ≠ 3)
    (hm : (0xD880#16).getLsbD k.val = true → m.getLsbD k.val = false) (aDown : Bool) (h : Nat) :
    eventAt m aDown h k = none := by
  have hA : keymap k ≠ .a := fun ha => hk ((keymap_eq_iff k .a).mp ha |>.trans keyPos_a)
  rcases keymap_digit_or_command k with h3 | ⟨d, hd⟩ | hcommand
  · exact absurd h3 hk
  · simp [eventAt, hd]
  · unfold eventAt
    cases hl : keymap k with
    | a => exact absurd hl hA
    | digit => rfl
    | b | c | d | star | hash => exact if_neg (Bool.eq_false_iff.mp (hm hcommand))

/-- The highest active command key other than A publishes its event: nothing above it produces one, and it is above A. -/
theorem afterScan_btn_of_command {m : SampleMap} (s : State) {k : KeyPos} {e : ButtonEvent} (hk : 3 < k)
    (he : eventAt m s.aDown (advanceHd m s.hd).toNat k = some e)
    (hhigh : ∀ k' : KeyPos, k < k' → (0xD880#16).getLsbD k'.val = true → m.getLsbD k'.val = false) :
    (afterScan m s).btn = eventCode e :=
  afterScan_btn he fun k' hk' => eventAt_eq_none (hk.trans hk').ne' (hhigh k' hk') _ _

/-- Settles O34: from D down to B, each command key is the highest active one if those before it are not active. -/
theorem commandKeysPublish : Obligations.CommandKeysPublish := by
  intro m s
  have above_14 : ∀ k : KeyPos, 14 < k → (0xD880#16).getLsbD k.val = true → k = 15 := by decide
  have above_12 : ∀ k : KeyPos, 12 < k → (0xD880#16).getLsbD k.val = true → k = 14 ∨ k = 15 := by decide
  have above_11 : ∀ k : KeyPos, 11 < k → (0xD880#16).getLsbD k.val = true → k = 12 ∨ k = 14 ∨ k = 15 := by decide
  have above_7 : ∀ k : KeyPos, 7 < k → (0xD880#16).getLsbD k.val = true → k = 11 ∨ k = 12 ∨ k = 14 ∨ k = 15 := by decide
  refine ⟨_, exec_kpscan_afterScan m s, fun h15 => ?_, fun h15 h14 => ?_, fun h15 h14 h12 => ?_,
    fun h15 h14 h12 h11 => ?_, fun h15 h14 h12 h11 h7 => ?_⟩
  · exact afterScan_btn_of_command s (k := 15) (e := .keyD) (by decide) (if_pos h15) fun k hk _ =>
      absurd hk (Fin.le_last k).not_gt
  · refine afterScan_btn_of_command s (k := 14) (e := .keyHash) (by decide) (if_pos h14) fun k hk hc => ?_
    obtain rfl := above_14 k hk hc
    exact h15
  · refine afterScan_btn_of_command s (k := 12) (e := .keyStar) (by decide) (if_pos h12) fun k hk hc => ?_
    rcases above_12 k hk hc with rfl | rfl <;> assumption
  · refine afterScan_btn_of_command s (k := 11) (e := .keyC) (by decide) (if_pos h11) fun k hk hc => ?_
    rcases above_11 k hk hc with rfl | rfl | rfl <;> assumption
  · refine afterScan_btn_of_command s (k := 7) (e := .keyB) (by decide) (if_pos h7) fun k hk hc => ?_
    rcases above_7 k hk hc with rfl | rfl | rfl | rfl <;> assumption

/-! ## Key A -/

theorem eventAt_keyA (m : SampleMap) (aDown : Bool) (h : Nat) : eventAt m aDown h 3 =
    if aDown && !m.getLsbD 3 then some (if h ≤ 4000 then .keyA else .keyALongPress) else none := rfl

/-- With no other command key active only key A's release publishes. -/
theorem eventAt_of_no_command {m : SampleMap} (hm : m &&& 0xD880#16 = 0#16) {k : KeyPos} (hk : k ≠ 3) (aDown : Bool)
    (h : Nat) : eventAt m aDown h k = none := by
  refine eventAt_eq_none hk (fun hcommand => ?_) aDown h
  have hbit : (m &&& 0xD880#16).getLsbD k.val = false := by rw [hm, BitVec.getLsbD_zero]
  rwa [BitVec.getLsbD_and, hcommand, Bool.and_true] at hbit

theorem afterScan_btn_of_release {m : SampleMap} (hm : m &&& 0xD880#16 = 0#16) {s : State} (hdown : s.aDown = true)
    (hup : m.getLsbD 3 = false) : (afterScan m s).btn = if (advanceHd m s.hd).toNat ≤ 4000 then 2#4 else 3#4 := by
  rw [afterScan_btn (k := 3) (by rw [eventAt_keyA, hdown, hup]; rfl) fun k hk => eventAt_of_no_command hm hk.ne' _ _]
  split_ifs <;> rfl

theorem afterScan_btn_of_no_release {m : SampleMap} (hm : m &&& 0xD880#16 = 0#16) {s : State}
    (h : s.aDown = false ∨ m.getLsbD 3 = true) : (afterScan m s).btn = s.btn := by
  refine afterScan_btn_of_no_event fun k => ?_
  by_cases hk : k = 3
  · subst hk
    rw [eventAt_keyA]
    rcases h with h | h <;> simp [h]
  · exact eventAt_of_no_command hm hk _ _

/-- Settles O35: with no other command key active the only event is key A's, in the scan that finds it released. -/
theorem keyAPublishesOnRelease : Obligations.KeyAPublishesOnRelease := by
  intro m s hs hm
  refine ⟨_, exec_kpscan_afterScan m s, fun hdown hup hshort => ?_, fun hdown hup hlong => ?_,
    fun hactive => afterScan_btn_of_no_release hm (.inr hactive), fun hdown _ => afterScan_btn_of_no_release hm (.inl hdown)⟩
  · rw [afterScan_btn_of_release hm hdown hup, advanceHd_toNat m hs, if_pos hshort]
  · rw [afterScan_btn_of_release hm hdown hup, advanceHd_toNat m hs, if_neg (by omega)]

/-! ## aDown -/

theorem aDown_of_effect {i : Instr} {s t : State} (h : Effect i s t) (hscan : ∀ m, i ≠ .kpscan m) (hreset : i ≠ .reset) :
    t.aDown = s.aDown := by
  cases h with
  | kpscan m => exact absurd rfl (hscan m)
  | reset => exact absurd rfl hreset
  | nop | tick | idleto | read => rfl
  | write _ a v => exact regWrite_aDown a v s

theorem runOps_aDown {ops : List Instr} (hscan : ∀ m, Instr.kpscan m ∉ ops) (hreset : Instr.reset ∉ ops) (s : State) :
    ∃ t, runOps ops s = .next t ∧ t.aDown = s.aDown := by
  induction ops generalizing s with
  | nil => exact ⟨s, rfl, rfl⟩
  | cons i ops ih =>
    simp only [List.mem_cons, not_or] at hscan hreset
    obtain ⟨t, ht⟩ := Exceptions.exec_completes i s
    obtain ⟨u, hu, hdown⟩ := ih (fun m => (hscan m).2) hreset.2 t
    refine ⟨u, (runOps_cons ht ops).trans hu, hdown.trans ?_⟩
    exact aDown_of_effect (exec_effect ht) (fun m => Ne.symm (hscan m).1) (Ne.symm hreset.1)

/-- Settles O37: only KPSCAN and RESET write aDown, and KPSCAN writes key A's sample. -/
theorem aDownIsKeyAOfTheLastScan : Obligations.ADownIsKeyAOfTheLastScan := by
  intro m ops s hscan hreset
  obtain ⟨t, ht, hdown⟩ := runOps_aDown hscan hreset (afterScan m s)
  exact ⟨t, (runOps_cons (exec_kpscan_afterScan m s) ops).trans ht, hdown⟩

/-! ## The scan with every key up, and holding key 2 -/

/-- Settles O38: with no key active the compare value is HD, no candidate is set, and the only event is key A's release. -/
theorem scanWithEveryKeyUp : Obligations.ScanWithEveryKeyUp := by
  intro s
  have hbtn : (afterScan 0#16 s).btn =
      if s.aDown = true then (if s.hd.toNat ≤ 4000 then 2#4 else 3#4) else s.btn := by
    cases hdown : s.aDown with
    | true => rw [if_pos rfl]; exact afterScan_btn_of_release (by decide) hdown rfl
    | false => exact afterScan_btn_of_no_release (by decide) (.inl hdown)
  have hcchar : (afterScan 0#16 s).cchar = s.cchar :=
    afterScan_cchar_of_no_digit (digitActive_eq_false (by decide)) s
  have hhd : (afterScan 0#16 s).hd = s.hd := by
    obtain ⟨-, -, hcount⟩ := decodeKeys_spec 0#16 s.aDown (advanceHd 0#16 s.hd)
    exact hcount
  have hall : afterScan 0#16 s = { s with
      hd := (afterScan 0#16 s).hd
      cchar := (afterScan 0#16 s).cchar
      btn := (afterScan 0#16 s).btn
      aDown := false
      pins := { s.pins with rowN := 0b0000#4 }
      pinTrace := s.pinTrace ++ scanEvents 0#16 } := rfl
  rw [exec_kpscan_afterScan, hall, hbtn, hcchar, hhd]
  rfl

/-- Key 2's list by the count (41_keypad_decoder.md rule R126). -/
theorem tapChar_two (h : BitVec 14) : tapChar 2 h =
    if h.toNat < 2500 then 0x32#8 else if h.toNat < 5000 then 0x41#8 else if h.toNat < 7500 then 0x42#8 else 0x43#8 := by
  have hentry : tapChar 2 h = [0x32#8, 0x41#8, 0x42#8, 0x43#8].getD (min (h.toNat / 2500) 3) 0x43#8 := tapChar_eq 2 h _
  rw [hentry]
  split_ifs with h1 h2 h3
  · rw [show min (h.toNat / 2500) 3 = 0 by omega]; rfl
  · rw [show min (h.toNat / 2500) 3 = 1 by omega]; rfl
  · rw [show min (h.toNat / 2500) 3 = 2 by omega]; rfl
  · rw [show min (h.toNat / 2500) 3 = 3 by omega]; rfl

theorem exec_kpscan_keyTwo (s : State) : ∃ t, exec (.kpscan 0x0002#16) s = .next t ∧
    t.cchar = tapChar 2 (advanceHd 0x0002#16 s.hd) ∧ t.hd = advanceHd 0x0002#16 s.hd :=
  exec_kpscan_of_only_digit (d := 2) (by decide) (by decide) (by decide) s

/-- `n` scans of key 2 from a cleared count. -/
theorem runOps_keyTwo {s : State} (hs : s.hd = 0#14) {n : Nat} (h1 : 1 ≤ n) (hn : n ≤ 12499) :
    ∃ t, runOps (List.replicate n (.kpscan 0x0002#16)) s = .next t ∧ t.hd.toNat = n ∧ t.cchar = tapChar 2 t.hd := by
  obtain ⟨k, rfl⟩ := Nat.exists_eq_add_of_le' h1
  have hzero : s.hd.toNat = 0 := by rw [hs]; rfl
  obtain ⟨t, ht, hcount, -, -⟩ := runOps_scans (m := 0x0002#16) (by decide) (by decide) k s (by omega)
  obtain ⟨u, hu, hchar, hhd⟩ := exec_kpscan_keyTwo t
  refine ⟨u, ?_, ?_, by rw [hchar, hhd]⟩
  · rw [List.replicate_succ']
    exact runOps_concat ht hu
  · have hcount' : t.hd.toNat = k := by omega
    rw [hhd, advanceHd_toNat _ (by omega), heldCount, if_neg (by decide), if_neg (by omega), hcount']

/-- Once an operation has cleared the count, key 2 is at its first stage again. -/
theorem keyTwo_restarts {i : Instr} (hi : ∀ s, exec i s = .next { s with hd := 0#14 }) (s : State) :
    ∃ u, runOps [.kpscan 0x0000#16, i, .kpscan 0x0002#16] s = .next u ∧ u.cchar = 0x32#8 ∧ u.hd = 1#14 := by
  obtain ⟨u, hu, hchar, hhd⟩ := exec_kpscan_keyTwo { afterScan 0x0000#16 s with hd := 0#14 }
  have hone : advanceHd 0x0002#16 0#14 = 1#14 := by decide
  refine ⟨u, (runOps_cons (exec_kpscan_afterScan _ s) _).trans (runOps_pair (hi _) hu), ?_, hhd.trans hone⟩
  rw [hchar, hone, tapChar_two]
  rfl

/-- Settles O39: each scan counts one up from 0 and CCHAR is the entry of the stage; IDLETO and CLR.HD clear the count. -/
theorem holdingKeyTwoWalksItsList : Obligations.HoldingKeyTwoWalksItsList := by
  intro n s hs h1 hn
  obtain ⟨t, ht, hcount, hchar⟩ := runOps_keyTwo hs h1 hn
  refine ⟨t, ht, hcount, ?_, keyTwo_restarts exec_idleto t, fun d => keyTwo_restarts (exec_clrHd d) t⟩
  rw [hchar, tapChar_two, hcount]

/-- Settles O30, by evaluating the ten lists and the sixteen masks. -/
theorem keyListsCoverTheAlphabetOnce : Obligations.KeyListsCoverTheAlphabetOnce := by
  refine ⟨?_, ?_, ?_, ?_, ?_⟩ <;> decide

/-! ## The mailbox is one deep -/

theorem exec_kpscan_keyB (s : State) : ∃ t, exec (.kpscan 0x0080#16) s = .next t ∧ t.btn = 4#4 := by
  obtain ⟨t, ht, -, -, -, -, hB⟩ := commandKeysPublish 0x0080#16 s
  exact ⟨t, ht, hB rfl rfl rfl rfl rfl⟩

/-- Settles O56: BTN holds one code, and a scan's event, ACK.BTN and the next event each overwrite it. -/
theorem anEventBetweenReadAndAckIsLost : Obligations.AnEventBetweenReadAndAckIsLost := by
  intro d m s
  refine ⟨?_, ?_, ?_⟩
  · exact ⟨_, (runOps_cons (exec_rdBtn s) _).trans (runOps_pair (exec_kpscan_afterScan m _) (exec_ackBtn d _)), rfl, rfl⟩
  · obtain ⟨t, ht, hbtn, -, hreads⟩ := exec_kpscan_keyD { s with reads := s.reads ++ [s.btn.setWidth 16], btn := 1#4 }
    exact ⟨t, (runOps_cons (exec_rdBtn s) _).trans (runOps_pair (exec_ackBtn d _) ht), hreads, hbtn⟩
  · obtain ⟨t, ht, -, -, -⟩ := exec_kpscan_keyD s
    obtain ⟨u, hu, hbtn⟩ := exec_kpscan_keyB t
    exact ⟨u, runOps_pair ht hu, hbtn⟩

end Sys2Proof.Scan
end

section
/-! PROOF. Which operation touches which register, and what a TICK and another operation have to do with each other
(10_state.md sections 1 and 2, 40_display_mux.md section 3, 60_exceptions.md section 3). -/

namespace Sys2Proof.Separation

open Sys2Proof.Machine Sys2Proof.HostPort Sys2Proof.OpcodeMap Sys2Proof.Exceptions Sys2Proof.Effects Sys2Proof.Step

/-! ## Writers -/

/-- A write in the window changes VB at most, and at the reserved indexes 6 and 7 nothing. -/
theorem regWrite_window_frame {a : RegAddr} (ha : a.toNat < 8) (v : Word) (s : State) :
    regWrite a v s = { s with vb := (regWrite a v s).vb } := by
  by_cases h6 : a.toNat < 6
  · simp [regWrite, h6]
  · rw [regWrite_reserved (show Reserved a by unfold Reserved; omega)]

theorem vbAddr_lt (idx : Nat) : (vbAddr idx).toNat < 8 := by
  have hwindow : ∀ b : BitVec 3, (0#1 ++ b).toNat < 8 := by decide
  exact hwindow _

theorem rsvdAddr_ge (lo : Nat) : 12 ≤ (rsvdAddr lo).toNat := by
  have hblock : ∀ b : BitVec 2, 12 ≤ (0b11#2 ++ b).toNat := by decide
  exact hblock _

/-- Settles O55: the update that an operation is names the registers it writes; a read and a reserved write name none. -/
theorem eachRegisterHasItsWriters : Obligations.EachRegisterHasItsWriters := by
  intro i s t h
  have of_read (hi : isHostRead i = true) : ∃ a, t = hostRead a s := by
    obtain ⟨a, ha⟩ := exec_of_isHostRead hi
    cases (ha s).symm.trans h
    exact ⟨a, rfl⟩
  cases i with
  | nop => cases h; simp
  | tick => cases (exec_tick s).symm.trans h; simp
  | idleto => cases (exec_idleto s).symm.trans h; simp
  | reset => cases (exec_reset s).symm.trans h; simp
  | kpscan m =>
    cases (exec_kpscan_afterScan m s).symm.trans h
    have hbtn := afterScan_btn_cases m s
    simpa [afterScan] using hbtn
  | rdVb | rdCursor | rdCchar | rdBtn | rdHd | rdRsvd =>
    obtain ⟨a, rfl⟩ := of_read rfl
    simp
  | wrVb idx d =>
    have hwrite : exec (.wrVb idx d) s = .next (regWrite (vbAddr idx) d s) := rfl
    rw [hwrite, regWrite_window_frame (vbAddr_lt idx)] at h
    cases h
    simp
  | wrCursor d => cases (exec_wrCursor d s).symm.trans h; simp
  | wrCchar d => cases (exec_wrCchar d s).symm.trans h; simp
  | ackBtn d => cases (exec_ackBtn d s).symm.trans h; simp
  | clrHd d => cases (exec_clrHd d s).symm.trans h; simp
  | wrRsvd lo d =>
    have hwrite : exec (.wrRsvd lo d) s = .next (regWrite (rsvdAddr lo) d s) := rfl
    rw [hwrite, regWrite_reserved (.inr (.inr (rsvdAddr_ge lo)))] at h
    cases h
    simp

/-! ## What a host can see -/

/-- The registers a host can read, aDown and the words read of `s`, in a state that is otherwise `u`. -/
def withHostCells (s u : State) : State :=
  { u with
    vb := s.vb
    cursor := s.cursor
    cchar := s.cchar
    btn := s.btn
    hd := s.hd
    aDown := s.aDown
    reads := s.reads }

theorem withHostCells_self (s : State) : withHostCells s s = s := rfl

theorem hostView_withHostCells (s u : State) : hostView (withHostCells s u) = hostView s := rfl

theorem regWrite_withHostCells (a : RegAddr) (v : Word) (s u : State) :
    regWrite a v (withHostCells s u) = withHostCells (regWrite a v s) u := by
  unfold regWrite
  split_ifs <;> rfl

/-- TICK writes none of these cells. -/
theorem withHostCells_afterTick (s u : State) : withHostCells (afterTick s) u = withHostCells s u := rfl

/-- What an operation but TICK makes of these cells depends on nothing else. -/
theorem exec_withHostCells {i : Instr} (htick : i ≠ .tick) {s t : State} (h : exec i s = .next t) (u : State) :
    ∃ v, exec i (withHostCells s u) = .next (withHostCells t v) := by
  have of_read (hi : isHostRead i = true) : ∃ v, exec i (withHostCells s u) = .next (withHostCells t v) := by
    obtain ⟨a, ha⟩ := exec_of_isHostRead hi
    cases (ha s).symm.trans h
    exact ⟨u, ha _⟩
  have of_write (hi : isHostWrite i = true) : ∃ v, exec i (withHostCells s u) = .next (withHostCells t v) := by
    obtain ⟨a, v, hav⟩ := exec_of_isHostWrite hi
    cases (hav s).symm.trans h
    exact ⟨u, by rw [hav, regWrite_withHostCells]⟩
  cases i with
  | tick => exact absurd rfl htick
  | nop => cases h; exact ⟨u, exec_nop _⟩
  | idleto => cases (exec_idleto s).symm.trans h; exact ⟨u, exec_idleto _⟩
  | kpscan m =>
    cases (exec_kpscan_afterScan m s).symm.trans h
    exact ⟨afterScan m u, exec_kpscan_afterScan m _⟩
  | reset =>
    cases (exec_reset s).symm.trans h
    exact ⟨trace .pinsReset (resetRegisters u), exec_reset _⟩
  | rdVb | rdCursor | rdCchar | rdBtn | rdHd | rdRsvd => exact of_read rfl
  | wrVb | wrCursor | wrCchar | ackBtn | clrHd | wrRsvd => exact of_write rfl

/-- A run and the run without its TICKs, from states that agree on these cells, end in states that do. -/
theorem runOps_without_ticks {ops : List Instr} {s t : State} (h : runOps ops s = .next t) (u : State) :
    ∃ v, runOps (ops.filter (fun i => decide (i ≠ .tick))) (withHostCells s u) = .next (withHostCells t v) := by
  induction ops generalizing s u with
  | nil => cases h; exact ⟨u, rfl⟩
  | cons i ops ih =>
    obtain ⟨r, hr⟩ := exec_completes i s
    rw [runOps_cons hr] at h
    by_cases htick : i = .tick
    · subst htick
      cases (exec_tick s).symm.trans hr
      simpa [withHostCells_afterTick] using ih h u
    · obtain ⟨v, hv⟩ := exec_withHostCells htick hr u
      obtain ⟨w, hw⟩ := ih h v
      refine ⟨w, ?_⟩
      rw [List.filter_cons_of_pos (by simpa using htick), runOps_cons hv]
      exact hw

/-- Settles O23: TICK touches none of the cells a host can see, and no other operation makes them depend on the rest. -/
theorem ticksAreInvisibleToTheHost : Obligations.TicksAreInvisibleToTheHost := by
  intro ops s t h
  obtain ⟨v, hv⟩ := runOps_without_ticks h s
  rw [withHostCells_self] at hv
  exact ⟨withHostCells t v, hv, hostView_withHostCells t v, rfl⟩

/-! ## TICK and KPSCAN -/

/-- A scan writes no character a TICK can show but the cursor slot's. -/
theorem nextPattern_afterScan (m : SampleMap) {s : State} (h : s.cursor.toNat ≠ (s.activeSlot + 1).val) :
    nextPattern (afterScan m s) = nextPattern s := by
  have hshown (u : State) (hu : u.cursor = s.cursor) : shownChar (s.activeSlot + 1) u = u.vb[(s.activeSlot + 1).val] :=
    if_neg (by rw [hu]; exact h)
  exact congrArg patternFor ((hshown (afterScan m s) rfl).trans (hshown s rfl).symm)

theorem rowEvents_of_tickEvents (s : State) : (tickEvents s).filter isRowEvent = [] := rfl

theorem displayEvents_of_scanEvents (m : SampleMap) : (scanEvents m).filter (fun e => !isRowEvent e) = [] := rfl

/-- Settles O24: the scan writes the decoder's cells and the row lines, the TICK the display's cells and lines, and with the cursor
slot not selected the TICK reads none that the scan writes. -/
theorem tickAndScanCommute : Obligations.TickAndScanCommute := by
  intro m s h
  have hpattern := nextPattern_afterScan m h
  have hevents : tickEvents (afterScan m s) = tickEvents s := by
    rw [tickEvents, hpattern]
    rfl
  have ht := (afterTick_emits s).trans (afterScan_emits m (afterTick s))
  have hu := (afterScan_emits m s).trans (afterTick_emits (afterScan m s))
  refine ⟨afterScan m (afterTick s), afterTick (afterScan m s), runOps_pair (exec_tick s) (exec_kpscan_afterScan m _),
    runOps_pair (exec_kpscan_afterScan m s) (exec_tick _), ?_, ?_, ?_⟩
  · rw [afterTick, hpattern]
    rfl
  · rw [ht.eventsSince_eq, hu.eventsSince_eq, hevents, List.filter_append, List.filter_append, rowEvents_of_tickEvents,
      List.append_nil, List.nil_append]
  · rw [ht.eventsSince_eq, hu.eventsSince_eq, hevents, List.filter_append, List.filter_append, displayEvents_of_scanEvents,
      List.append_nil, List.nil_append]

end Sys2Proof.Separation
end
